-- ==== Sys2Proof/Word.lean ====
section
/-! DEFINITION. The widths the spec fixes: an 8-bit cell (R8 CELL_W, R30, R198), a 4-bit stored instruction code (R124),
a 21-bit source character code (R120), a 32-bit register (R48 CSR_W) or tape size (R305 TS_W). Every field is unsigned (R10). -/

namespace Sys2Proof

/-- A tape cell and an I/O byte (R30, R200). -/
abbrev Byte := BitVec 8

/-- A stored instruction code (R124). -/
abbrev Code := BitVec 4

/-- A source character code on the load port (R120). -/
abbrev CharCode := BitVec 21

/-- A host-readable register (R48), FAULT_INFO (R42) and the tape-size field (R305). -/
abbrev Word := BitVec 32

end Sys2Proof
end

