-- ==== Sys2Proof/Config.lean ====
section
/-! DEFINITION. What a hardware instance fixes (the parameters of R8), the constants R8 fixes for every instance, and the
one free value of the model. The parameters are an ARGUMENT of the model (R8): State carries them in its field `hw`, no step
writes them, and a statement about every state is a statement about every instance (log 1). -/

namespace Sys2Proof

/-- The parameters of R8 that are left open per instance. -/
structure Params where
  /-- TAPE_MAX: the largest TAPE_LEN the hardware holds. -/
  tapeMax : Nat
  /-- PROG_MAX: the largest program length the program store holds. -/
  progMax : Nat
  /-- PC_W: the width of PC in bits. -/
  pcW : Nat
  /-- MP_W: the width of MP in bits. -/
  mpW : Nat
  /-- INPUT_ACCEPT_MAX: the largest input byte value InputValue accepts. -/
  inputAcceptMax : Nat
  deriving DecidableEq, Repr

/-- PC_MAX, the saturation value of PC (R8). -/
def Params.pcMax (p : Params) : Nat := 2 ^ p.pcW - 1

/-- DEFAULT_TAPE_LEN (R8): the tape length used when the build supplies none. -/
def Config.defaultTapeLen : Nat := 30000

/-- The length of DEFAULT_PROG (R8): 10 NoOps. -/
def Config.defaultProgLen : Nat := 10

/-- DESIGN CHOICE (log 1), unsafe for a claim about `State.reset` alone: the instance that `State.reset` carries. It is the
largest one R8 allows, with INPUT_ACCEPT_MAX at its default 128, so that it turns no build away that some instance takes. -/
def Config.largest : Params :=
  { tapeMax := 2 ^ 32 - 1, progMax := 2 ^ 31 - 1, pcW := 32, mpW := 32, inputAcceptMax := 128 }

/-- FREE VALUE (R320, U11, log 5): whether the output environment took the byte of the n-th step that was aborted while it
waited for the output answer. Both outcomes are admitted: nothing constrains it. -/
opaque Config.abortedByteTaken : Nat → Bool

end Sys2Proof
end

