-- ==== Sys2Proof/Syntax.lean ====
section
/-! DEFINITION. The instruction set BF-9: the nine kinds of R124, one constructor per row of the opcode table. -/

namespace Sys2Proof

/-- An instruction is its kind alone: it has no operand and no field (R123, R127). -/
inductive Instr where
  | incrementPointer   -- `>` R180
  | decrementPointer   -- `<` R185
  | incrementValue     -- `+` R190
  | decrementValue     -- `-` R195
  | outputValue        -- `.` R210
  | inputValue         -- `,` R215
  | jumpForward        -- `[` R220
  | jumpBackward       -- `]` R228
  | noOp               -- any other character, R235
  deriving DecidableEq, Repr

end Sys2Proof
end

