-- ==== Sys2Proof/WellFormed.lean ====
section
/-! DEFINITION. The checks on what comes from outside: a hardware instance (R8), a stored code (R124, R129) and a number
offered as a source character (R120). An `Instr` has no field (R123, R127), so every one is well formed and there is nothing
to check of it. -/

namespace Sys2Proof

/-- The constraints R8 puts on an instance's parameters. -/
def Params.wf (p : Params) : Bool :=
  decide (30000 ≤ p.tapeMax) && decide (p.tapeMax ≤ 2 ^ 32 - 1) &&
  decide (10 ≤ p.progMax) && decide (p.progMax ≤ 2 ^ 31 - 1) &&
  decide (p.progMax ≤ p.pcMax) && decide (p.pcW ≤ 32) &&
  decide (p.tapeMax ≤ 2 ^ p.mpW) && decide (p.mpW ≤ 32) &&
  (decide (p.inputAcceptMax = 127) || decide (p.inputAcceptMax = 128))

/-- A stored code that stands for an instruction: 0x9 to 0xF are reserved (R124, R129). -/
def codeAssigned (k : Code) : Bool := decide (k.toNat < 9)

/-- A number that fits the 21-bit load port (R120). Surrogates and values above 0x10FFFF can be presented too (R120). -/
def fitsCharCode (w : Nat) : Bool := decide (w < 2 ^ 21)

end Sys2Proof
end

