-- ==== Sys2Proof/Decode.lean ====
section
/-! DEFINITION. The decoder of R125 (source form to stored form, total), the reading of a stored code (R124, reserved codes
rejected by name, R129), and the encoders written from the same tables (R121, R124). The numeric character codes are those of
R121, which the spec marks as general knowledge (log 12). -/

namespace Sys2Proof

/-- Why a number is no instruction. -/
inductive DecodeError where
  /-- The stored code is one of the reserved 0x9 to 0xF (R129). -/
  | reservedCode (k : Code)
  /-- The number does not fit the 21-bit load port (R120), so it cannot be presented to the decoder. -/
  | widerThanCharCode (w : Nat)
  deriving DecidableEq, Repr

/-- `Decode(c)` (R125): a total function of `c` alone (R126). Every code that is no command is NoOp (R128). -/
def decodeChar (c : CharCode) : Code :=
  if c = 0x3E#21 then 0x1#4
  else if c = 0x3C#21 then 0x2#4
  else if c = 0x2B#21 then 0x3#4
  else if c = 0x2D#21 then 0x4#4
  else if c = 0x2E#21 then 0x5#4
  else if c = 0x2C#21 then 0x6#4
  else if c = 0x5B#21 then 0x7#4
  else if c = 0x5D#21 then 0x8#4
  else 0x0#4

/-- The kind a stored code stands for (R124). 0x9 to 0xF are reserved (R129). -/
def decodeCode (k : Code) : Except DecodeError Instr :=
  if k = 0x0#4 then .ok .noOp
  else if k = 0x1#4 then .ok .incrementPointer
  else if k = 0x2#4 then .ok .decrementPointer
  else if k = 0x3#4 then .ok .incrementValue
  else if k = 0x4#4 then .ok .decrementValue
  else if k = 0x5#4 then .ok .outputValue
  else if k = 0x6#4 then .ok .inputValue
  else if k = 0x7#4 then .ok .jumpForward
  else if k = 0x8#4 then .ok .jumpBackward
  else .error (.reservedCode k)

/-- The instruction a source character stands for: decoded to its stored code, then read as a kind (R125, R124). -/
def decodeSource (c : CharCode) : Except DecodeError Instr := decodeCode (decodeChar c)

/-- A number as a source character: total, a number wider than the port is rejected by name (log 13). -/
def decodeWord (w : Nat) : Except DecodeError Instr :=
  if fitsCharCode w then decodeSource (BitVec.ofNat 21 w) else .error (.widerThanCharCode w)

/-- The stored code of a kind (R124). -/
def encodeCode : Instr → Code
  | .noOp => 0x0#4
  | .incrementPointer => 0x1#4
  | .decrementPointer => 0x2#4
  | .incrementValue => 0x3#4
  | .decrementValue => 0x4#4
  | .outputValue => 0x5#4
  | .inputValue => 0x6#4
  | .jumpForward => 0x7#4
  | .jumpBackward => 0x8#4

/-- A source character of a kind (R121). DESIGN CHOICE (log 13), safe: of the many characters that are NoOp (R128) this
takes code 0, the table row's match value. -/
def encodeChar : Instr → CharCode
  | .incrementPointer => 0x3E#21
  | .decrementPointer => 0x3C#21
  | .incrementValue => 0x2B#21
  | .decrementValue => 0x2D#21
  | .outputValue => 0x2E#21
  | .inputValue => 0x2C#21
  | .jumpForward => 0x5B#21
  | .jumpBackward => 0x5D#21
  | .noOp => 0x00#21

/-- The decoder read through the opcode table's numbering of bits: an instruction is one character code (R122), so its bits
are the number itself. -/
def decodeTableWord (nbits w : Nat) : Option Instr :=
  match decodeWord (w % 2 ^ nbits) with
  | .ok i => some i
  | .error _ => none

end Sys2Proof
end

