-- ==== Sys2Proof/Machine/State.lean ====
section
/-! DEFINITION. The machine's state as plain data: every element of 10_state.md, the hardware instance (R8), and the queues
and records that stand for the three agents outside the block (R13). INVENTORY.md lists each field with its rule. -/

namespace Sys2Proof.Machine

open Sys2Proof

/-- Sparse contents of a space of `w`-bit elements: (index, value) pairs, indexes strictly rising, no value 0. An unlisted
index reads 0 (`Store.read`). -/
abbrev Store (w : Nat) := List (Nat × BitVec w)

/-- The tape's contents: `Host.Cell` pairs. -/
abbrev Memory := List Host.Cell

/-- ENG_STATE (R40). Codes 5 to 7 are never held: there is no constructor for them. -/
inductive EngState where
  | unbuilt | loading | running | halted | fault
  deriving DecidableEq, Repr

/-- IO_WAIT (R43). Code 3 is never held. -/
inductive IoWait where
  | idle | input | output
  deriving DecidableEq, Repr

/-- FAULT_CAUSE (R251). Codes 10 to 15 are never held. -/
inductive Cause where
  | none | configNoInput | configBadTapeSize | loadTooLong | loadBadOpcode | loadUnmatchedJF | loadUnmatchedJB
  | runUnmatchedJF | runUnmatchedJB | bounds
  deriving DecidableEq, Repr

/-- BUILD_MODE (R44): 0 = DEFAULT program, 1 = SUPPLIED program. -/
inductive BuildMode where
  | defaultProgram | suppliedProgram
  deriving DecidableEq, Repr

/-- READ_PROG's mode (R101): GET (0) or INDEX (1). -/
inductive ReadMode where
  | get | index
  deriving DecidableEq, Repr

/-- An answer of the input environment (R204). -/
inductive InRsp where
  | ok (b : Byte) | err
  deriving DecidableEq, Repr

/-- An answer of the output environment (R201). -/
inductive OutRsp where
  | ok | err
  deriving DecidableEq, Repr

/-- A host command (R13). READ_PROG's index is `PC_W` bits wide, a width the instance fixes, so it is a Nat here and the
port takes its low `PC_W` bits (log 11). -/
inductive Cmd where
  | reset
  | buildBegin (mode : BuildMode) (tsValid : Bool) (tsValue : Word) (inputPresent : Bool)
  | progPushChar (c : CharCode)
  | progPushInstr (k : Code)
  | buildCommit
  | step
  | readCsr (addr : Byte)
  | readTape (i : Word)
  | readProg (i : Nat) (mode : ReadMode)
  deriving DecidableEq, Repr

/-- The status part of a read command's answer (R48, R101, R102). -/
inductive RdStatus where
  | ok | invalid | none
  deriving DecidableEq, Repr

/-- The block's answer to a host command. -/
inductive Resp where
  | ok                                        -- R103, R104, R300, R305, R310
  | ignored                                   -- R103, R104, R307
  | refused                                   -- R150, R101
  | done                                      -- R150
  | faulted (cause : Cause)                   -- R260, R263
  | csr (status : RdStatus) (value : Word)    -- R48
  | tape (status : RdStatus) (value : Byte)   -- R102
  | prog (status : RdStatus) (value : Code)   -- R101
  deriving DecidableEq, Repr

/-- The build staging registers (R44). -/
structure Stage where
  mode : BuildMode          -- BUILD_MODE
  tsValid : Bool            -- TS_VALID
  tsValue : Word            -- TS_VALUE
  inputPresent : Bool       -- INPUT_PRESENT
  len : Nat                 -- STAGE_LEN
  overflow : Bool           -- STAGE_OVERFLOW
  badopSeen : Bool          -- STAGE_BADOP_SEEN
  badopIndex : Nat          -- STAGE_BADOP_INDEX
  deriving DecidableEq, Repr

/-- The staging registers after RESET (R53). -/
def Stage.empty : Stage :=
  { mode := .defaultProgram, tsValid := false, tsValue := 0#32, inputPresent := false,
    len := 0, overflow := false, badopSeen := false, badopIndex := 0 }

/-- The agents outside the block (R13) and the record of what they saw (R15). These are the model's own fields: no rule of
the spec gives the block storage for them (log 2, log 3, log 17). -/
structure Env where
  /-- The host's coming commands, oldest first. When none is left the host goes on with STEP (log 2). -/
  cmds : List Cmd
  /-- The input environment, one entry for each transition in which a request of the block is outstanding: `some r` is its
  answer, `none` says that no answer comes in that transition (log 3). -/
  inputs : List (Option InRsp)
  /-- The output environment, the same way (log 3). -/
  outputs : List (Option OutRsp)
  /-- The bytes written to the output channel, in order (R15). -/
  emitted : List Byte
  /-- The input transactions consumed, in order (R15). -/
  consumed : List InRsp
  /-- How many waiting output steps have been aborted: the index into `Config.abortedByteTaken` (R320, log 5). -/
  aborts : Nat
  /-- The answer the last transition gave the host; none while a step waits on I/O. -/
  resp : Option Resp
  deriving DecidableEq, Repr

/-- Nothing queued and nothing recorded (log 17). -/
def Env.empty : Env :=
  { cmds := [], inputs := [], outputs := [], emitted := [], consumed := [], aborts := 0, resp := none }

/-- The whole state. -/
structure State where
  hw : Params               -- the instance's parameters (R8), constant
  engState : EngState       -- ENG_STATE (R40)
  pc : Nat                  -- PC (R34)
  mp : Nat                  -- MP (R33)
  tapeLen : Nat             -- TAPE_LEN (R30)
  tape : Memory             -- TAPE (R30)
  prog : Store 4            -- PROG (R38)
  progValid : Bool          -- PROG_VALID (R39)
  progLen : Nat             -- PROG_LEN (R39)
  faultCause : Cause        -- FAULT_CAUSE (R42)
  faultInfo : Word          -- FAULT_INFO (R42)
  ioWait : IoWait           -- IO_WAIT (R43)
  stage : Stage             -- the build staging registers (R44)
  env : Env                 -- the agents outside the block (R13)
  deriving DecidableEq, Repr

/-- Why the model's machine stops. -/
inductive Fault where
  /-- Raised by a meaning that accesses the current cell when MP is outside `0 .. TAPE_LEN-1`, an index at which the spec
  says no cell exists. R88: it cannot occur, since MP is kept in range. Safe: the model stops, it makes no claim (log 9). -/
  | tapeOutOfRange (index : Nat)
  deriving DecidableEq, Repr

/-- Why the model gives no meaning. -/
inductive Refusal where
  /-- Raised by an arm of `exec` for an instruction the model does not give a meaning. Safe. No arm does so. -/
  | notModelled (mnemonic : String)
  /-- Raised by a step that fetches a reserved stored code 0x9 to 0xF. R152: "A model may still make the dispatch total by
  refusing a reserved code by name"; it cannot occur, since BUILD_COMMIT rejects such a program. Safe (log 10). -/
  | reservedCode (k : Code)
  deriving DecidableEq, Repr

/-- The state after RESET of an instance (R53), with the agents outside as given. The tape and the program store are
unspecified there and never observed; the model lists nothing in them (DESIGN CHOICE, log 6). -/
def State.resetOf (hw : Params) (env : Env) : State :=
  { hw := hw, engState := .unbuilt, pc := 0, mp := 0, tapeLen := 0, tape := [], prog := [],
    progValid := false, progLen := 0, faultCause := .none, faultInfo := 0#32, ioWait := .idle,
    stage := Stage.empty, env := env }

/-- The machine right after power-on reset (R53, R300), of the instance `Config.largest` (log 1), with nothing queued by
the agents outside (log 17). -/
def State.reset : State := State.resetOf Config.largest Env.empty

end Sys2Proof.Machine
end

