-- ==== Sys2Proof/Machine/Ops.lean ====
section
/-! DEFINITION. The named operations every meaning and every host command is written over: reading and writing a space,
entering FAULT (R260), the end of a step (R155, R156), an answer to the host. -/

namespace Sys2Proof.Machine

open Sys2Proof

/-! ### Spaces in canonical form -/

/-- The element at an index; an unlisted index reads 0. -/
def Store.read {w : Nat} : Store w → Nat → BitVec w
  | [], _ => 0#w
  | (b, x) :: t, a => if a = b then x else Store.read t a

/-- The space with one element written, in canonical form: writing 0 leaves the index unlisted. -/
def Store.write {w : Nat} : Store w → Nat → BitVec w → Store w
  | [], a, v => if v = 0#w then [] else [(a, v)]
  | (b, x) :: t, a, v =>
    if a < b then (if v = 0#w then (b, x) :: t else (a, v) :: (b, x) :: t)
    else if a = b then (if v = 0#w then t else (a, v) :: t)
    else (b, x) :: Store.write t a v

/-- Canonical form of what stands after index `lo`: rising indexes from `lo` on, and no listed 0. -/
def Store.wfFrom {w : Nat} : Nat → Store w → Bool
  | _, [] => true
  | lo, (b, x) :: t => decide (lo ≤ b) && decide (x ≠ 0#w) && Store.wfFrom (b + 1) t

/-- Canonical form: indexes strictly rising, and no entry equal to what an unlisted index reads as. -/
def Store.wf {w : Nat} (m : Store w) : Bool := Store.wfFrom 0 m

/-- One cell of the tape's contents. -/
def Memory.read (m : Memory) (a : Nat) : Byte := Store.read m a

/-- The tape's contents with one cell written. -/
def Memory.write (m : Memory) (a : Nat) (v : Byte) : Memory := Store.write m a v

/-- The tape's contents are in canonical form. -/
def Memory.wf (m : Memory) : Bool := Store.wf m

/-- `ProgRead(i)` (R11): the entry at a program index. -/
def State.progRead (s : State) (i : Nat) : Code := Store.read s.prog i

/-- `PROG[i] <- k` for `i = 0 .. n-1`, from index 0 up. -/
def Store.fill {w : Nat} (v : BitVec w) : Nat → Store w → Store w
  | 0, m => m
  | n + 1, m => Store.write (Store.fill v n m) n v

/-! ### Outcomes -/

/-- Go on from a next state; a stop stays. -/
def andThen (o : Host.Outcome State Fault Refusal) (f : State → Host.Outcome State Fault Refusal) :
    Host.Outcome State Fault Refusal :=
  match o with
  | .next s => f s
  | .fault r => .fault r
  | .refused r => .refused r

/-! ### Fault entry, the end of a step, answers -/

/-- `raise Fault(cause, info)` (R260): exactly these three elements are written. -/
def raise (cause : Cause) (info : Word) (s : State) : State :=
  { s with faultCause := cause, faultInfo := info, engState := .fault }

/-- `zext_32` of an unsigned field (R10). -/
def zext32 (n : Nat) : Word := BitVec.ofNat 32 n

/-- The saturating post-increment (R155). -/
def incPc (hw : Params) (pc : Nat) : Nat := if pc = hw.pcMax then hw.pcMax else pc + 1

/-- ENG_STATE of a built block (R40, R156). -/
def builtState (pc progLen : Nat) : EngState := if pc < progLen then .running else .halted

/-- The end of every step that raises no fault: PC's post-increment (R155), then ENG_STATE (R156). -/
def endStep (s : State) : State :=
  { s with pc := incPc s.hw s.pc, engState := builtState (incPc s.hw s.pc) s.progLen }

/-- The block is built: ENG_STATE is RUNNING or HALTED (R18). -/
def State.built (s : State) : Bool := decide (s.engState = .running) || decide (s.engState = .halted)

/-- The block gives the host an answer. -/
def answer (r : Resp) (s : State) : State := { s with env := { s.env with resp := some r } }

/-- The numeric code of FAULT_CAUSE (R251). -/
def Cause.code : Cause → Nat
  | .none => 0
  | .configNoInput => 1
  | .configBadTapeSize => 2
  | .loadTooLong => 3
  | .loadBadOpcode => 4
  | .loadUnmatchedJF => 5
  | .loadUnmatchedJB => 6
  | .runUnmatchedJF => 7
  | .runUnmatchedJB => 8
  | .bounds => 9

/-- The numeric code of ENG_STATE (R40). -/
def EngState.code : EngState → Nat
  | .unbuilt => 0
  | .loading => 1
  | .running => 2
  | .halted => 3
  | .fault => 4

/-- The numeric code of IO_WAIT (R43). -/
def IoWait.code : IoWait → Nat
  | .idle => 0
  | .input => 1
  | .output => 2

end Sys2Proof.Machine
end

