-- ==== Sys2Proof/Machine/Operands.lean ====
section
/-! DEFINITION. The implicit operands (R127): the current cell `TAPE[MP]`, the one addressing mode of the tape (R81), and the
safe access to the program (R98). -/

namespace Sys2Proof.Machine

open Sys2Proof

/-- The current cell's value (R18), where it exists. -/
def State.cell (s : State) : Byte := Memory.read s.tape s.mp

/-- Go on with the current cell's value. Where MP is outside the tape there is no such cell: the model stops (R88, log 9). -/
def withCell (s : State) (f : Byte → Host.Outcome State Fault Refusal) : Host.Outcome State Fault Refusal :=
  if s.mp < s.tapeLen then f s.cell else .fault (.tapeOutOfRange s.mp)

/-- `MemWrite(MP, 1, v)` (R11). -/
def setCell (v : Byte) (s : State) : State := { s with tape := Memory.write s.tape s.mp v }

/-- `Get(i)` (R11, R98): None when the index is out of range; an empty program has `PROG_LEN = 0` (R39). -/
def State.get (s : State) (i : Nat) : Option Code := if i < s.progLen then some (s.progRead i) else none

end Sys2Proof.Machine
end

