-- ==== Sys2Proof/Machine/Flags.lean ====
section
/-! DEFINITION. The block has no flags (R46). What stands here are the one condition an instruction tests (R222, R230) and
the level outputs and ports that are views of the state (R52, R201, R204). -/

namespace Sys2Proof.Machine

open Sys2Proof

/-- The zero test of all 8 bits of a cell (R222, R230). It is not stored. -/
def isZero (v : Byte) : Bool := decide (v = 0#8)

/-- The level output `halted` (R52). -/
def State.haltedOut (s : State) : Bool := decide (s.engState = .halted)

/-- The level output `faulted` (R52). -/
def State.faultedOut (s : State) : Bool := decide (s.engState = .fault)

/-- The input port's request `in_req` (R204). -/
def State.inReq (s : State) : Bool := decide (s.ioWait = .input)

/-- The output port's `out_valid` (R201). -/
def State.outValid (s : State) : Bool := decide (s.ioWait = .output)

/-- The output port's `out_data` while `out_valid` is 1: the cell the waiting OutputValue read, which cannot change during
the wait (R201, R210). -/
def State.outData (s : State) : Byte := s.cell

end Sys2Proof.Machine
end

