-- ==== Sys2Proof/Machine/Matching.lean ====
section
/-! DEFINITION. Bracket matching (44_control.md section 2): MatchFwd (R240), MatchBwd (R241), balance (R242) and Validate
(R243), over a program given by its entries `P` and its length `n`. -/

namespace Sys2Proof.Machine

open Sys2Proof

/-- The stored code of JumpForward (R124). -/
def codeJF : Code := 0x7#4

/-- The stored code of JumpBackward (R124). -/
def codeJB : Code := 0x8#4

/-- One entry's effect on the forward depth counter (R240). The counter is unsigned and never goes below 0 before the scan
returns (R245). -/
def depthFwd (k : Code) (depth : Nat) : Nat :=
  if k = codeJF then depth + 1 else if k = codeJB then depth - 1 else depth

/-- One entry's effect on the backward depth counter, the mirror (R241). -/
def depthBwd (k : Code) (depth : Nat) : Nat :=
  if k = codeJB then depth + 1 else if k = codeJF then depth - 1 else depth

/-- The forward scan of R240 from index `k` over the `left` entries up to the program end. -/
def scanFwd (P : Nat → Code) : (left k depth : Nat) → Option Nat
  | 0, _, _ => none
  | left + 1, k, depth =>
    if depthFwd (P k) depth = 0 then some k else scanFwd P left (k + 1) (depthFwd (P k) depth)

/-- `MatchFwd(i)` (R240), bounded by the program end. Outside its domain `i < n` it is None. -/
def matchFwd (P : Nat → Code) (n i : Nat) : Option Nat :=
  if i < n ∧ P i = codeJF then scanFwd P (n - i) i 0 else none

/-- The backward scan of R241 from index `k` down to index 0. -/
def scanBwd (P : Nat → Code) : (k depth : Nat) → Option Nat
  | 0, depth => if depthBwd (P 0) depth = 0 then some 0 else none
  | k + 1, depth =>
    if depthBwd (P (k + 1)) depth = 0 then some (k + 1) else scanBwd P k (depthBwd (P (k + 1)) depth)

/-- `MatchBwd(i)` (R241), bounded by index 0. Outside its domain `i < n` it is None. -/
def matchBwd (P : Nat → Code) (n i : Nat) : Option Nat :=
  if i < n ∧ P i = codeJB then scanBwd P i 0 else none

/-- Index `i` holds an unmatched bracket (R243). -/
def unmatchedAt (P : Nat → Code) (n i : Nat) : Bool :=
  (decide (P i = codeJF) && (matchFwd P n i).isNone) || (decide (P i = codeJB) && (matchBwd P n i).isNone)

/-- The program `P[0 .. n-1]` is balanced (R242). -/
abbrev Balanced (P : Nat → Code) (n : Nat) : Prop :=
  ∀ i, i < n → (P i = codeJF → matchFwd P n i ≠ none) ∧ (P i = codeJB → matchBwd P n i ≠ none)

/-- The cause that names an unmatched bracket (R243). -/
def unmatchedCause (k : Code) : Cause := if k = codeJF then .loadUnmatchedJF else .loadUnmatchedJB

/-- The smallest index below `n` that holds an unmatched bracket, if any. -/
def firstUnmatched (P : Nat → Code) (n : Nat) : Option Nat := (List.range n).find? (unmatchedAt P n)

/-- `Validate(P)` (R243): None is OK, otherwise the cause and the smallest unmatched index. -/
def validate (P : Nat → Code) (n : Nat) : Option (Cause × Nat) :=
  match firstUnmatched P n with
  | none => none
  | some u => some (unmatchedCause (P u), u)

/-! ### The one-pass form of Validate (R243) -/

/-- The smaller of two indexes, where each may be absent (R243's min). -/
def minIndex : Option Nat → Option Nat → Option Nat
  | none, b => b
  | some a, none => some a
  | some a, some b => some (min a b)

/-- What the one-pass Validate carries: the depth counter, the stack of open `[` indexes and the first unmatched `]`. -/
structure Pass where
  depth : Nat
  stack : List Nat
  firstJB : Option Nat
  deriving DecidableEq, Repr

/-- One turn of the one-pass loop, at index `k` (R243). -/
def passStep (P : Nat → Code) (k : Nat) (p : Pass) : Pass :=
  if P k = codeJF then { p with stack := k :: p.stack, depth := p.depth + 1 }
  else if P k = codeJB then
    if p.depth = 0 then { p with firstJB := minIndex p.firstJB (some k) }
    else { p with stack := p.stack.tail, depth := p.depth - 1 }
  else p

/-- The loop of the one-pass form after indexes `0 .. n-1`. -/
def passLoop (P : Nat → Code) : Nat → Pass
  | 0 => { depth := 0, stack := [], firstJB := none }
  | n + 1 => passStep P n (passLoop P n)

/-- The smallest index left on the stack. -/
def stackMin : List Nat → Option Nat
  | [] => none
  | k :: t => minIndex (some k) (stackMin t)

/-- The one-pass form of Validate (R243). The model's build uses `validate`; that the two agree is a statement. -/
def validateOnePass (P : Nat → Code) (n : Nat) : Option (Cause × Nat) :=
  match minIndex (passLoop P n).firstJB (stackMin (passLoop P n).stack) with
  | none => none
  | some u => some (unmatchedCause (P u), u)

end Sys2Proof.Machine
end

