-- ==== Sys2Proof/Machine/Commands.lean ====
section
/-! DEFINITION. The host commands other than STEP: RESET (R300), BUILD_BEGIN (R305), PROG_PUSH_CHAR (R103),
PROG_PUSH_INSTR (R104), BUILD_COMMIT (R310), READ_CSR (R48, R49), READ_TAPE (R102), READ_PROG (R101). Each gives the host an
answer. None of them stops. -/

namespace Sys2Proof.Machine

open Sys2Proof

/-! ### Aborting a waiting step -/

/-- What is left of a waiting step that RESET or BUILD_BEGIN aborts (R320): no cell write and no post-increment. For an
aborted OutputValue the output environment took the byte or not, as the free value says (log 5). The callers clear IO_WAIT. -/
def abortIo (s : State) : State :=
  match s.ioWait with
  | .output =>
    { s with env := { s.env with
        emitted := if Config.abortedByteTaken s.env.aborts then s.env.emitted ++ [s.cell] else s.env.emitted
        aborts := s.env.aborts + 1 } }
  | .input => s
  | .idle => s

/-! ### RESET and the build -/

/-- RESET (R300, R53): the reset state of the same instance. The agents outside keep their queues and records (log 17). -/
def doReset (s : State) : State := answer .ok (State.resetOf s.hw (abortIo s).env)

/-- BUILD_BEGIN (R305). The tape and the program store keep their contents, which no rule reads before BUILD_COMMIT. -/
def doBuildBegin (mode : BuildMode) (tsValid : Bool) (tsValue : Word) (inputPresent : Bool) (s : State) : State :=
  answer .ok
    { abortIo s with
      pc := 0, mp := 0, tapeLen := 0, progValid := false, progLen := 0, faultCause := .none, faultInfo := 0#32,
      ioWait := .idle, engState := .loading,
      stage := { mode := mode, tsValid := tsValid, tsValue := tsValue, inputPresent := inputPresent,
                 len := 0, overflow := false, badopSeen := false, badopIndex := 0 } }

/-- A push is taken only in LOADING with a SUPPLIED program (R103, R104, R306). -/
def pushTaken (s : State) : Bool := decide (s.engState = .loading) && decide (s.stage.mode = .suppliedProgram)

/-- `PROG[STAGE_LEN] <- k`, STAGE_LEN + 1 (R103, R104). -/
def stageCode (k : Code) (s : State) : State :=
  { s with prog := Store.write s.prog s.stage.len k, stage := { s.stage with len := s.stage.len + 1 } }

/-- A push beyond PROG_MAX is dropped and remembered (R103, R104). -/
def stageOverflow (s : State) : State := { s with stage := { s.stage with overflow := true } }

/-- The first reserved code pushed is remembered with its index (R104). -/
def noteBadop (k : Code) (s : State) : State :=
  if codeAssigned k = false ∧ s.stage.badopSeen = false then
    { s with stage := { s.stage with badopSeen := true, badopIndex := s.stage.len } }
  else s

/-- PROG_PUSH_CHAR (R103). -/
def doPushChar (c : CharCode) (s : State) : State :=
  if pushTaken s then
    answer .ok (if s.stage.len < s.hw.progMax then stageCode (decodeChar c) s else stageOverflow s)
  else answer .ignored s

/-- PROG_PUSH_INSTR (R104). -/
def doPushInstr (k : Code) (s : State) : State :=
  if pushTaken s then
    answer .ok (if s.stage.len < s.hw.progMax then stageCode k (noteBadop k s) else stageOverflow s)
  else answer .ignored s

/-- The tape length a build asks for: `(TS_VALID == 1) ? TS_VALUE : 30000` (R310). -/
def buildTapeLen (s : State) : Nat := if s.stage.tsValid then s.stage.tsValue.toNat else Config.defaultTapeLen

/-- The checks of a supplied program, in the order of R255: length, reserved code, balance. -/
def programFault (s : State) : Option (Cause × Word) :=
  if s.stage.overflow then some (.loadTooLong, zext32 s.hw.progMax)
  else if s.stage.badopSeen then some (.loadBadOpcode, zext32 s.stage.badopIndex)
  else match validate s.progRead s.stage.len with
    | some (cause, u) => some (cause, zext32 u)
    | none => none

/-- The first check of BUILD_COMMIT that fails, in the order of R255. -/
def buildFault (s : State) : Option (Cause × Word) :=
  if s.stage.inputPresent = false then some (.configNoInput, 0#32)
  else if buildTapeLen s = 0 ∨ s.hw.tapeMax < buildTapeLen s then
    some (.configBadTapeSize, zext32 (buildTapeLen s))
  else match s.stage.mode with
    | .defaultProgram => none
    | .suppliedProgram => programFault s

/-- The number of instructions a build that passes its checks gives the program (R310). -/
def buildProgLen (s : State) : Nat :=
  match s.stage.mode with
  | .defaultProgram => Config.defaultProgLen
  | .suppliedProgram => s.stage.len

/-- The program store after a build: the default program is filled in, a supplied one is in place (R310). -/
def buildProg (s : State) : Store 4 :=
  match s.stage.mode with
  | .defaultProgram => Store.fill 0#4 Config.defaultProgLen s.prog
  | .suppliedProgram => s.prog

/-- The constructed VM (R310, R54). Clearing every cell of the new tape leaves nothing listed: cells past TAPE_LEN are not
architectural (R32, log 7). -/
def construct (s : State) : State :=
  { s with
    tape := [], tapeLen := buildTapeLen s, prog := buildProg s, progLen := buildProgLen s,
    progValid := decide (1 ≤ buildProgLen s), pc := 0, mp := 0,
    engState := builtState 0 (buildProgLen s) }

/-- BUILD_COMMIT (R307, R310, R263). -/
def doBuildCommit (s : State) : State :=
  if s.engState = .loading then
    match buildFault s with
    | some (cause, info) => answer (.faulted cause) (raise cause info s)
    | none => answer .ok (construct s)
  else answer .ignored s

/-! ### Host reads -/

/-- PROG_LEN and PROG_VALID as the host reads them: a block that is not built has neither (R39, log 8). -/
def progLenWord (s : State) : Word :=
  if s.built then (if s.progValid then 0x80000000#32 else 0#32) ||| zext32 s.progLen else 0#32

/-- CUR_INSTR (R49, R51). A block that is not built has no current instruction (R39, log 8). -/
def curInstrWord (s : State) : Word :=
  if s.built then
    match s.get s.pc with
    | some k => 0x10#32 ||| k.setWidth 32
    | none => 0#32
  else 0#32

/-- One bit at its place in a register. -/
def flagBit (b : Bool) (place : Nat) : Word := if b then 1#32 <<< place else 0#32

/-- BUILD_STAGE (R49). -/
def buildStageWord (st : Stage) : Word :=
  flagBit (decide (st.mode = .suppliedProgram)) 0 ||| flagBit st.tsValid 1 ||| flagBit st.inputPresent 2 |||
  flagBit st.overflow 3 ||| flagBit st.badopSeen 4

/-- The register map (R49); None is an address not in it. -/
def csrWord (s : State) (addr : Byte) : Option Word :=
  match addr.toNat with
  | 0x00 => some (zext32 (s.engState.code + s.ioWait.code * 8))
  | 0x01 => some (zext32 s.faultCause.code)
  | 0x02 => some s.faultInfo
  | 0x03 => some (zext32 s.pc)
  | 0x04 => some (zext32 s.mp)
  | 0x05 => some (if s.built then s.cell.setWidth 32 else 0#32)
  | 0x06 => some (if s.built then zext32 s.tapeLen else 0#32)
  | 0x07 => some (progLenWord s)
  | 0x08 => some (curInstrWord s)
  | 0x09 => some (zext32 s.hw.progMax)
  | 0x0A => some (zext32 s.hw.tapeMax)
  | 0x0B => some (zext32 s.hw.inputAcceptMax)
  | 0x0C => some (buildStageWord s.stage)
  | 0x0D => some (zext32 s.stage.len)
  | 0x0E => some s.stage.tsValue
  | 0x0F => some (zext32 s.stage.badopIndex)
  | _ => none

/-- READ_CSR (R48). -/
def doReadCsr (addr : Byte) (s : State) : State :=
  match csrWord s addr with
  | some v => answer (.csr .ok v) s
  | none => answer (.csr .invalid 0#32) s

/-- READ_TAPE (R102). -/
def doReadTape (i : Word) (s : State) : State :=
  if s.built = true ∧ i.toNat < s.tapeLen then answer (.tape .ok (Memory.read s.tape i.toNat)) s
  else answer (.tape .invalid 0#8) s

/-- READ_PROG of an index on a port `PC_W` bits wide (R101). -/
def readProgAt (i : Nat) (mode : ReadMode) (s : State) : State :=
  if s.built = false then answer (.prog .invalid 0#4) s
  else if s.progValid = true ∧ i < s.progLen then answer (.prog .ok (s.progRead i)) s
  else match mode with
    | .get => answer (.prog .none 0#4) s
    | .index => answer (.faulted .bounds) (raise .bounds (zext32 i) s)

/-- READ_PROG (R101). In INDEX mode it is refused while a step waits on I/O (R101, R321). The port takes the index's low
`PC_W` bits (log 11). -/
def doReadProg (i : Nat) (mode : ReadMode) (s : State) : State :=
  if mode = .index ∧ s.ioWait ≠ .idle then answer .refused s
  else readProgAt (i % 2 ^ s.hw.pcW) mode s

end Sys2Proof.Machine
end

