-- ==== Sys2Proof/Machine/Control.lean ====
section
/-! DEFINITION. The control instructions (44_control.md section 1). A jump reassigns PC before the post-increment (R155),
so it lands one past the matching bracket; 90_conflicts.md C2 fixes the landing. -/

namespace Sys2Proof.Machine

open Sys2Proof

/-- `MatchFwd(i)` of the program the block holds (R240). -/
def State.matchFwd (s : State) (i : Nat) : Option Nat := Sys2Proof.Machine.matchFwd s.progRead s.progLen i

/-- `MatchBwd(i)` of the program the block holds (R241). -/
def State.matchBwd (s : State) (i : Nat) : Option Nat := Sys2Proof.Machine.matchBwd s.progRead s.progLen i

/-- Take a jump to a match, or raise the fault that says there is none (R220, R228). -/
def jumpTo (target : Option Nat) (cause : Cause) (s : State) : State :=
  match target with
  | some j => endStep { s with pc := j }
  | none => raise cause (zext32 s.pc) s

/-- JumpForward (R220). -/
def execJumpForward (s : State) : Host.Outcome State Fault Refusal :=
  withCell s fun v =>
    if isZero v then .next (jumpTo (s.matchFwd s.pc) .runUnmatchedJF s) else .next (endStep s)

/-- JumpBackward (R228). -/
def execJumpBackward (s : State) : Host.Outcome State Fault Refusal :=
  withCell s fun v =>
    if isZero v then .next (endStep s) else .next (jumpTo (s.matchBwd s.pc) .runUnmatchedJB s)

/-- NoOp (R235): the post-increment alone (R236). -/
def execNoOp (s : State) : Host.Outcome State Fault Refusal := .next (endStep s)

end Sys2Proof.Machine
end

