-- ==== Sys2Proof/Machine/Io.lean ====
section
/-! DEFINITION. The I/O channels and instructions (43_io.md). A step that performs a transaction issues it, and completes
when the environment answers (R201, R204): in the same transition when the answer comes at once, otherwise in the later
transition that brings the answer (Machine/Cycle.lean), with the state kept as it was before the step (R14, R48). -/

namespace Sys2Proof.Machine

open Sys2Proof

/-- Ask the input environment: its answer in this transition, if one comes, and the state with that draw taken (R208). -/
def takeInput (s : State) : Option InRsp × State :=
  match s.env.inputs with
  | [] => (none, s)
  | a :: rest => (a, { s with env := { s.env with inputs := rest } })

/-- Ask the output environment, the same way (R201). -/
def takeOutput (s : State) : Option OutRsp × State :=
  match s.env.outputs with
  | [] => (none, s)
  | a :: rest => (a, { s with env := { s.env with outputs := rest } })

/-- The byte an answer brings, if the block accepts it (R205, R252): `OK(b)` with `b <= INPUT_ACCEPT_MAX`. -/
def acceptedByte (hw : Params) : InRsp → Option Byte
  | .ok b => if b.toNat ≤ hw.inputAcceptMax then some b else none
  | .err => none

/-- The input transaction is over: IO_WAIT is 0 and one answer is consumed (R204, R216). -/
def endInput (r : InRsp) (s : State) : State :=
  { s with ioWait := .idle, env := { s.env with consumed := s.env.consumed ++ [r] } }

/-- The output transaction is over: IO_WAIT is 0 and one byte, the current cell's value, has been written (R201, log 15). -/
def endOutput (s : State) : State :=
  { s with ioWait := .idle, env := { s.env with emitted := s.env.emitted ++ [s.cell] } }

/-- The rest of InputValue once the answer is there (R215). -/
def completeInput (r : InRsp) (s : State) : Host.Outcome State Fault Refusal :=
  withCell s fun _ =>
    match acceptedByte s.hw r with
    | some b => .next (endStep (setCell b (endInput r s)))
    | none => .next (endStep (endInput r s))

/-- The rest of OutputValue once the answer is there. The answer is discarded: an ERR changes nothing (R202). -/
def completeOutput (_r : OutRsp) (s : State) : Host.Outcome State Fault Refusal :=
  withCell s fun _ => .next (endStep (endOutput s))

/-- InputValue (R215): one input transaction; while no answer comes the step waits with IO_WAIT = 1 (R204, R206). -/
def execInputValue (s : State) : Host.Outcome State Fault Refusal :=
  match takeInput s with
  | (some r, s') => completeInput r s'
  | (none, s') => .next { s' with ioWait := .input }

/-- OutputValue (R210): one output transaction; while no answer comes the step waits with IO_WAIT = 2 (R201, R203). -/
def execOutputValue (s : State) : Host.Outcome State Fault Refusal :=
  match takeOutput s with
  | (some r, s') => completeOutput r s'
  | (none, s') => .next { s' with ioWait := .output }

end Sys2Proof.Machine
end

