-- ==== Sys2Proof/Machine/Pointer.lean ====
section
/-! DEFINITION. The pointer instructions (41_pointer.md). -/

namespace Sys2Proof.Machine

open Sys2Proof

/-- `(MP == TAPE_LEN - 1) ? 0 : MP + 1` (R180). -/
def mpRight (tapeLen mp : Nat) : Nat := if mp + 1 = tapeLen then 0 else mp + 1

/-- `(MP == 0) ? TAPE_LEN - 1 : MP - 1` (R185). -/
def mpLeft (tapeLen mp : Nat) : Nat := if mp = 0 then tapeLen - 1 else mp - 1

/-- IncrementPointer (R180). -/
def execIncrementPointer (s : State) : Host.Outcome State Fault Refusal :=
  .next (endStep { s with mp := mpRight s.tapeLen s.mp })

/-- DecrementPointer (R185). -/
def execDecrementPointer (s : State) : Host.Outcome State Fault Refusal :=
  .next (endStep { s with mp := mpLeft s.tapeLen s.mp })

end Sys2Proof.Machine
end

