-- ==== Sys2Proof/Machine/Value.lean ====
section
/-! DEFINITION. The cell instructions (42_value.md). Cell arithmetic wraps modulo 256 (R31): it is `BitVec 8` addition. -/

namespace Sys2Proof.Machine

open Sys2Proof

/-- IncrementValue (R190): `MemWrite(MP, 1, (MemRead(MP, 1) + 1) mod 256)`. -/
def execIncrementValue (s : State) : Host.Outcome State Fault Refusal :=
  withCell s fun v => .next (endStep (setCell (v + 1#8) s))

/-- DecrementValue (R195): `MemWrite(MP, 1, (MemRead(MP, 1) + 255) mod 256)`. -/
def execDecrementValue (s : State) : Host.Outcome State Fault Refusal :=
  withCell s fun v => .next (endStep (setCell (v + 255#8) s))

end Sys2Proof.Machine
end

