-- ==== Sys2Proof/Machine/Dispatch.lean ====
section
/-! DEFINITION. The dispatch of R152: one arm per kind. -/

namespace Sys2Proof.Machine

open Sys2Proof

def exec (i : Instr) (s : State) : Host.Outcome State Fault Refusal :=
  match i with
  | .incrementPointer => Sys2Proof.Machine.execIncrementPointer s
  | .decrementPointer => Sys2Proof.Machine.execDecrementPointer s
  | .incrementValue => Sys2Proof.Machine.execIncrementValue s
  | .decrementValue => Sys2Proof.Machine.execDecrementValue s
  | .outputValue => Sys2Proof.Machine.execOutputValue s
  | .inputValue => Sys2Proof.Machine.execInputValue s
  | .jumpForward => Sys2Proof.Machine.execJumpForward s
  | .jumpBackward => Sys2Proof.Machine.execJumpBackward s
  | .noOp => Sys2Proof.Machine.execNoOp s

end Sys2Proof.Machine
end

