-- ==== Sys2Proof/Machine/Cycle.lean ====
section
/-! DEFINITION. One transition of the block: who moves next, the fetch (R151), STEP (R150, R152, R153), a waiting step that
the environment's answer completes (R201, R204), and where a program is placed so that the next transition runs it. -/

namespace Sys2Proof.Machine

open Sys2Proof

/-- STEP is accepted (R150). -/
def stepAccepted (s : State) : Bool := s.built && decide (s.ioWait = .idle)

/-- The stored code a step executes: `(Get(PC) == Some(k)) ? k : NoOp` (R151). -/
def fetchCode (s : State) : Code := (s.get s.pc).getD (encodeCode .noOp)

/-- The answer to an accepted STEP: DONE when it completes, FAULTED when it raised a fault (R150, R260), and none yet while
it waits on I/O (R201, R204). -/
def stepResp (s : State) : Option Resp :=
  if s.ioWait ≠ .idle then none
  else if s.engState = .fault then some (.faulted s.faultCause)
  else some .done

/-- The answer given to the host after an accepted STEP. -/
def answerStep (s : State) : State := { s with env := { s.env with resp := stepResp s } }

/-- STEP (R150): fetch, dispatch, execute, answer. A reserved code is refused by name (R152, log 10). -/
def doStep (s : State) : Host.Outcome State Fault Refusal :=
  if stepAccepted s then
    match decodeCode (fetchCode s) with
    | .ok i => andThen (exec i s) fun t => .next (answerStep t)
    | .error _ => .refused (.reservedCode (fetchCode s))
  else .next (answer .refused s)

/-- One host command. -/
def doCmd (c : Cmd) (s : State) : Host.Outcome State Fault Refusal :=
  match c with
  | .reset => .next (doReset s)
  | .buildBegin mode tsValid tsValue inputPresent => .next (doBuildBegin mode tsValid tsValue inputPresent s)
  | .progPushChar ch => .next (doPushChar ch s)
  | .progPushInstr k => .next (doPushInstr k s)
  | .buildCommit => .next (doBuildCommit s)
  | .step => doStep s
  | .readCsr addr => .next (doReadCsr addr s)
  | .readTape i => .next (doReadTape i s)
  | .readProg i mode => .next (doReadProg i mode s)

/-- What moves the block in a transition: a host command, or the answer a waiting step waits for. -/
inductive Move where
  | cmd (c : Cmd)
  | inputAnswer (r : InRsp)
  | outputAnswer (r : OutRsp)
  deriving DecidableEq, Repr

/-- The host's next command, taken from its queue. A host with nothing queued goes on with STEP (R16, log 2). -/
def takeCmd (s : State) : Move × State :=
  match s.env.cmds with
  | [] => (.cmd .step, s)
  | c :: rest => (.cmd c, { s with env := { s.env with cmds := rest } })

/-- What moves the block next, and the state with that datum taken from its agent's queue. While a step waits on I/O the
environment is asked first; when no answer comes in this transition the host moves (log 3). -/
def nextMove (s : State) : Move × State :=
  match s.ioWait with
  | .idle => takeCmd s
  | .input =>
    match takeInput s with
    | (some r, s') => (.inputAnswer r, s')
    | (none, s') => takeCmd s'
  | .output =>
    match takeOutput s with
    | (some r, s') => (.outputAnswer r, s')
    | (none, s') => takeCmd s'

/-- What a move does. -/
def doMove (m : Move) (s : State) : Host.Outcome State Fault Refusal :=
  match m with
  | .cmd c => doCmd c s
  | .inputAnswer r => andThen (completeInput r s) fun t => .next (answerStep t)
  | .outputAnswer r => andThen (completeOutput r s) fun t => .next (answerStep t)

/-- One transition of the block (R14). -/
def transition (s : State) : Host.Outcome State Fault Refusal := doMove (nextMove s).1 (nextMove s).2

/-- The state with a stored code as the entry at PC of a built, running block, about to take a STEP (log 14). What already
serves stays: the tape length and MP where MP is on the tape, and the program length where PC is below it. -/
def placeCode (k : Code) (s : State) : State :=
  { s with
    engState := .running, ioWait := .idle
    prog := Store.write s.prog s.pc k
    progValid := true
    progLen := if s.pc < s.progLen then s.progLen else s.pc + 1
    tapeLen := if s.tapeLen = 0 then Config.defaultTapeLen else s.tapeLen
    mp := if s.mp < s.tapeLen then s.mp else 0
    env := { s.env with cmds := .step :: s.env.cmds } }

end Sys2Proof.Machine
end

