-- ==== Sys2Proof/Machine/Step.lean ====
section
/-! DEFINITION. The step function, and the placing of one instruction where the next step fetches. -/

namespace Sys2Proof.Machine

open Sys2Proof

/-- One step of the machine: one transition of the block (R14). -/
def step (s : State) : Host.Outcome State Fault Refusal := transition s

/-- The state in which the very next step fetches and runs the instruction that the source character `w` decodes to. A
program is built from outside by host commands (R311); this stands for that build of one instruction (log 14). -/
def State.withFetchWord (s : State) (nbits w : Nat) : State :=
  placeCode (decodeChar (BitVec.ofNat 21 (w % 2 ^ nbits))) s

end Sys2Proof.Machine
end

