-- ==== Sys2Proof/Safety.lean ====
section
/-! DEFINITION. What a safe run is: the end of a run and its failure (R158), the invariant of the block, which rules out the
states no run reaches, and the tape as a statement reads it. -/

namespace Sys2Proof.Machine

open Sys2Proof

/-- A run has ended (R158): ENG_STATE is HALTED. -/
def State.ended (s : State) : Prop := s.engState = .halted

/-- A failed run (R158): FAULT is never a final state. -/
def State.failed (s : State) : Prop := s.engState = .fault

/-- The program the block holds is balanced (R242). -/
def State.balanced (s : State) : Prop := Balanced s.progRead s.progLen

/-- No reserved code stands below index `n` of the program store (R129). -/
def State.codesAssigned (s : State) (n : Nat) : Prop := ∀ i, i < n → codeAssigned (s.progRead i) = true

/-- The invariant of the block. -/
structure BlockInv (s : State) : Prop where
  /-- The instance obeys R8. -/
  hw : s.hw.wf = true
  /-- The tape's contents are in canonical form. -/
  tapeForm : Memory.wf s.tape = true
  /-- The program store is in canonical form. -/
  progForm : Store.wf s.prog = true
  /-- PC fits its register (R34, R36). -/
  pcRange : s.pc ≤ s.hw.pcMax
  /-- TAPE_LEN fits the hardware (R8, R310). -/
  tapeLenRange : s.tapeLen ≤ s.hw.tapeMax
  /-- PROG_LEN fits the hardware (R39). -/
  progLenRange : s.progLen ≤ s.hw.progMax
  /-- MP is on the tape, or there is no tape (R33, R53). -/
  mpRange : s.mp < s.tapeLen ∨ (s.mp = 0 ∧ s.tapeLen = 0)
  /-- A built block has a tape, and nothing is listed outside it (R30, R32). -/
  tapeBuilt : s.built = true → 0 < s.tapeLen ∧ ∀ c ∈ s.tape, c.1 < s.tapeLen
  /-- PROG_VALID says whether PROG_LEN is 1 or more (R39). -/
  validLen : s.progValid = decide (1 ≤ s.progLen)
  /-- Before a build commits nothing of the old VM is left (R53, R305). -/
  noVm : s.engState = .unbuilt ∨ s.engState = .loading → s.pc = 0 ∧ s.tapeLen = 0 ∧ s.progLen = 0
  /-- RUNNING (R35, R40). -/
  running : s.engState = .running → s.pc < s.progLen
  /-- HALTED (R35, R40). -/
  halted : s.engState = .halted → s.progLen ≤ s.pc
  /-- A built program holds no reserved code (R129). -/
  codes : s.built = true → s.codesAssigned s.progLen
  /-- A built program is balanced (R242). -/
  balanced : s.built = true → s.balanced
  /-- A step waits for input only while it executes InputValue (R43). -/
  waitInput : s.ioWait = .input → s.engState = .running ∧ s.progRead s.pc = encodeCode .inputValue
  /-- A step waits for output only while it executes OutputValue (R43). -/
  waitOutput : s.ioWait = .output → s.engState = .running ∧ s.progRead s.pc = encodeCode .outputValue
  /-- FAULT_CAUSE is held exactly in FAULT (R42, R251). -/
  causeHeld : s.faultCause = .none ↔ s.engState ≠ .fault
  /-- FAULT_INFO is 0 when no fault is held (R251). -/
  infoHeld : s.engState ≠ .fault → s.faultInfo = 0#32
  /-- STAGE_LEN is at most PROG_MAX (R44). -/
  stageRange : s.stage.len ≤ s.hw.progMax
  /-- In LOADING, no reserved code was pushed unless one was seen (R104). -/
  stageCodes : s.engState = .loading → s.stage.badopSeen = false → s.codesAssigned s.stage.len
  /-- In LOADING, STAGE_BADOP_INDEX is the first reserved code's index (R44, R104). -/
  stageBadop : s.engState = .loading → s.stage.badopSeen = true →
    s.stage.badopIndex < s.stage.len ∧ codeAssigned (s.progRead s.stage.badopIndex) = false ∧
      s.codesAssigned s.stage.badopIndex
  /-- STAGE_BADOP_INDEX is 0 while no reserved code was seen (R53, R104, R305). -/
  stageNoBadop : s.stage.badopSeen = false → s.stage.badopIndex = 0
  /-- STAGE_BADOP_INDEX fits the hardware (R44). -/
  stageBadopRange : s.stage.badopIndex ≤ s.hw.progMax

/-- `n` transitions in a row, stopping at the first stop: `Host.Core.run` of this machine, written over `step`. It counts
every transition; the fuel of R16 counts host STEP commands (`runFuel`). -/
def runSteps : Nat → State → Host.Outcome State Fault Refusal
  | 0, s => .next s
  | n + 1, s => andThen (step s) (runSteps n)

/-- One instruction executed `n` times in a row. -/
def repeatExec (i : Instr) : Nat → State → Host.Outcome State Fault Refusal
  | 0, s => .next s
  | n + 1, s => andThen (exec i s) (repeatExec i n)

/-- How often a code stands in the program's entries `i .. j` (the bracket depth of R240 counted without a counter). -/
def countCode (P : Nat → Code) (k : Code) (i j : Nat) : Nat :=
  (List.range' i (j + 1 - i)).countP fun x => decide (P x = k)

/-- The host command that moves the block in the step from `s`, where one does (R13, R257). -/
def State.nextCmd (s : State) : Option Cmd :=
  match (nextMove s).1 with
  | .cmd c => some c
  | .inputAnswer _ => none
  | .outputAnswer _ => none

/-! ### Runs under fuel measured in host STEP commands (R16) -/

/-- What the agents outside have queued. A transition that is no host STEP takes at least one datum of it. -/
def Env.pending (e : Env) : Nat := e.cmds.length + e.inputs.length + e.outputs.length

/-- The transitions before the next host STEP, at most `n` of them: the other host commands that come first, and the
answers that complete a waiting step. -/
def untilStep : Nat → State → Host.Outcome State Fault Refusal
  | 0, s => .next s
  | n + 1, s => if s.nextCmd = some .step then .next s else andThen (step s) (untilStep n)

/-- A run under fuel (R16): `n` host STEP commands, and every transition before, between and after them that is none. A STEP
that waits costs 1, however many transitions pass until its answer comes. The host keeps stepping after HALTED (R157);
whether a run has ended is `State.ended` of a state of it (R158). -/
def runFuel : Nat → State → Host.Outcome State Fault Refusal
  | 0, s => untilStep s.env.pending s
  | n + 1, s => andThen (untilStep s.env.pending s) fun t => andThen (step t) (runFuel n)

/-- How many of the first `k` transitions from a state are host STEP commands. -/
def countSteps : Nat → State → Nat
  | 0, _ => 0
  | k + 1, s =>
    (if s.nextCmd = some .step then 1 else 0) +
      match step s with
      | .next t => countSteps k t
      | .fault _ => 0
      | .refused _ => 0

/-- A command that discards the VM (R300, R305). -/
def Cmd.discardsVm : Cmd → Bool
  | .reset => true
  | .buildBegin _ _ _ _ => true
  | .progPushChar _ => false
  | .progPushInstr _ => false
  | .buildCommit => false
  | .step => false
  | .readCsr _ => false
  | .readTape _ => false
  | .readProg _ _ => false

end Sys2Proof.Machine
end

