-- ==== Sys2Proof/Certificates/Slice0/Obligations.lean ====
section
/-! DEFINITION. The statements for the provers. Each docstring names the rule of spec/ it formalises. Conventions: `nextMove s
= (.cmd c, s0)` says that the step from `s` handles the host command `c`, and that `s0` is `s` with the agents' queues moved
on (log 2, log 3); an environment's answer is the head of its queue (log 3), and a byte is recorded when it is answered (log
15); `endStep` is the end of a step, which `EndOfStep` spells out. -/

open Sys2Proof Sys2Proof.Machine

/-! ### Encoding -/

/-- Sanity (30_encoding.md R121, R124): the eight command characters, a comment and the code 0, bit by bit. -/
def Obligations.SourceWordsDecode : Prop :=
  decodeSource 0b0000000000000111110#21 = .ok .incrementPointer ∧
  decodeSource 0b0000000000000111100#21 = .ok .decrementPointer ∧
  decodeSource 0b0000000000000101011#21 = .ok .incrementValue ∧
  decodeSource 0b0000000000000101101#21 = .ok .decrementValue ∧
  decodeSource 0b0000000000000101110#21 = .ok .outputValue ∧
  decodeSource 0b0000000000000101100#21 = .ok .inputValue ∧
  decodeSource 0b0000000000001011011#21 = .ok .jumpForward ∧
  decodeSource 0b0000000000001011101#21 = .ok .jumpBackward ∧
  decodeSource 0b0000000000001111000#21 = .ok .noOp ∧
  decodeSource 0b0000000000000000000#21 = .ok .noOp

/-- R126, R128: decoding is total, everything but the eight commands is NoOp, and no reserved code comes out. -/
def Obligations.OtherCharactersAreNoOp : Prop :=
  ∀ c : CharCode,
    (∃ i, decodeSource c = .ok i) ∧ codeAssigned (decodeChar c) = true ∧
    (c ≠ 0x3E#21 → c ≠ 0x3C#21 → c ≠ 0x2B#21 → c ≠ 0x2D#21 → c ≠ 0x2E#21 → c ≠ 0x2C#21 → c ≠ 0x5B#21 → c ≠ 0x5D#21 →
      decodeChar c = 0x0#4 ∧ decodeSource c = .ok .noOp)

/-- 30_encoding.md sections 1 and 2: decode and encode agree on every kind, an assigned code is the code of its kind, and a
reserved code is rejected by name. -/
def Obligations.DecodeEncodeAgree : Prop :=
  (∀ i : Instr, decodeCode (encodeCode i) = .ok i ∧ decodeSource (encodeChar i) = .ok i ∧
    decodeChar (encodeChar i) = encodeCode i) ∧
  (∀ k : Code, codeAssigned k = true → ∃ i, decodeCode k = .ok i ∧ encodeCode i = k) ∧
  (∀ k : Code, codeAssigned k = false → decodeCode k = .error (.reservedCode k))

/-- 20_memory.md R96, R83 (headline): a string pushed character by character into a SUPPLIED build that still has room for
it stands in the program store in string order, one instruction per character: pushing the encodings of any list of
instructions puts entries there that decode to exactly that list, behind what was staged before. -/
def Obligations.LoadingAStringStagesItsInstructions : Prop :=
  ∀ (s : State) (is : List Instr) (rest : List Cmd),
    s.engState = .loading → s.stage.mode = .suppliedProgram → s.ioWait = .idle → Store.wf s.prog = true →
    s.stage.len + is.length ≤ s.hw.progMax →
    s.env.cmds = is.map (fun i => Cmd.progPushChar (encodeChar i)) ++ rest →
    ∃ t, runSteps is.length s = .next t ∧ t.env.cmds = rest ∧
      t.stage.len = s.stage.len + is.length ∧ t.stage.overflow = s.stage.overflow ∧
      (∀ k, k < s.stage.len → t.progRead k = s.progRead k) ∧
      (∀ k i, is[k]? = some i → decodeCode (t.progRead (s.stage.len + k)) = .ok i)

/-! ### The step -/

/-- 00_scope.md R14, 60_exceptions.md R257 with the model's own conventions (log 2, log 3): who moves in a step. -/
def Obligations.WhoMovesNext : Prop :=
  (∀ (s : State) (c : Cmd) (rest : List Cmd), s.ioWait = .idle → s.env.cmds = c :: rest →
    step s = doCmd c { s with env := { s.env with cmds := rest } }) ∧
  (∀ s : State, s.ioWait = .idle → s.env.cmds = [] → step s = doCmd .step s) ∧
  (∀ (s : State) (c : Cmd) (rest : List Cmd), s.ioWait = .input → s.env.inputs = [] → s.env.cmds = c :: rest →
    step s = doCmd c { s with env := { s.env with cmds := rest } }) ∧
  (∀ (s : State) (c : Cmd) (rest : List Cmd) (q : List (Option InRsp)),
    s.ioWait = .input → s.env.inputs = none :: q → s.env.cmds = c :: rest →
    step s = doCmd c { s with env := { s.env with cmds := rest, inputs := q } }) ∧
  (∀ (s : State) (c : Cmd) (rest : List Cmd), s.ioWait = .output → s.env.outputs = [] → s.env.cmds = c :: rest →
    step s = doCmd c { s with env := { s.env with cmds := rest } }) ∧
  (∀ (s : State) (c : Cmd) (rest : List Cmd) (q : List (Option OutRsp)),
    s.ioWait = .output → s.env.outputs = none :: q → s.env.cmds = c :: rest →
    step s = doCmd c { s with env := { s.env with cmds := rest, outputs := q } })

/-- R151 and 40_step.md R150, R152: an accepted STEP fetches through the safe access and executes the decoded instruction;
past the program's end it executes NoOp. Around the execution the model only gives the host its answer. -/
def Obligations.StepRunsTheDecodedInstruction : Prop :=
  ∀ (s s0 : State) (i : Instr),
    nextMove s = (.cmd .step, s0) → (s0.engState = .running ∨ s0.engState = .halted) → s0.ioWait = .idle →
    ((s0.pc < s0.progLen ∧ decodeCode (s0.progRead s0.pc) = .ok i) ∨ (s0.progLen ≤ s0.pc ∧ i = .noOp)) →
    step s = andThen (exec i s0) fun t => .next (answerStep t)

/-- R150: STEP is refused, with no state change, unless ENG_STATE is RUNNING or HALTED and no step is in progress; an
accepted STEP runs one step, and answers DONE when it completes, FAULTED when it raised a fault, and nothing yet while it
waits on I/O. -/
def Obligations.StepAcceptance : Prop :=
  ∀ s s0 : State, nextMove s = (.cmd .step, s0) →
    (¬ ((s0.engState = .running ∨ s0.engState = .halted) ∧ s0.ioWait = .idle) →
      step s = .next { s0 with env := { s0.env with resp := some .refused } }) ∧
    ((s0.engState = .running ∨ s0.engState = .halted) ∧ s0.ioWait = .idle → ∀ t, step s = .next t →
      (t.ioWait ≠ .idle → t.env.resp = none) ∧
      (t.ioWait = .idle → t.engState = .fault → t.env.resp = some (.faulted t.faultCause)) ∧
      (t.ioWait = .idle → t.engState ≠ .fault → t.env.resp = some .done)) ∧
    ((s0.engState = .running ∨ s0.engState = .halted) ∧ s0.ioWait = .idle → ∀ i, decodeCode (fetchCode s0) = .ok i →
      step s = andThen (exec i s0) fun t => .next (answerStep t))

/-- 40_step.md R155, R156: PC is post-incremented, saturating at PC_MAX, ENG_STATE is recomputed, nothing else is written;
a RUNNING step never saturates. -/
def Obligations.EndOfStep : Prop :=
  (∀ s : State, endStep s =
    { s with
      pc := if s.pc = 2 ^ s.hw.pcW - 1 then 2 ^ s.hw.pcW - 1 else s.pc + 1
      engState := if (if s.pc = 2 ^ s.hw.pcW - 1 then 2 ^ s.hw.pcW - 1 else s.pc + 1) < s.progLen
        then .running else .halted }) ∧
  (∀ s : State, BlockInv s → s.engState = .running → (endStep s).pc = s.pc + 1) ∧
  (∀ (s : State) (j : Nat), BlockInv s → j < s.progLen → (endStep { s with pc := j }).pc = j + 1)

/-- R157: a STEP accepted in HALTED executes NoOp: PC goes up by one, saturating, and nothing else of the block changes. -/
def Obligations.HaltedStepOnlyRaisesPc : Prop :=
  ∀ s s0 : State, nextMove s = (.cmd .step, s0) → s0.engState = .halted → s0.ioWait = .idle → s0.progLen ≤ s0.pc →
    step s = .next
      { s0 with
        pc := if s0.pc = s0.hw.pcMax then s0.hw.pcMax else s0.pc + 1
        engState := .halted
        env := { s0.env with resp := some .done } }

/-- R159, R256: only JumpForward and JumpBackward fault, each with its one cause, and the fault entry is all they write. -/
def Obligations.InstructionFaultsArePrecise : Prop :=
  ∀ (i : Instr) (s t : State), s.engState ≠ .fault → exec i s = .next t → t.engState = .fault →
    (i = .jumpForward ∧ t = { s with faultCause := .runUnmatchedJF, faultInfo := BitVec.ofNat 32 s.pc, engState := .fault }) ∨
    (i = .jumpBackward ∧ t = { s with faultCause := .runUnmatchedJB, faultInfo := BitVec.ofNat 32 s.pc, engState := .fault })

/-! ### Pointer instructions -/

/-- R180: IncrementPointer's encoding and effect, in both forms the rule gives. -/
def Obligations.IncrementPointerMovesRight : Prop :=
  decodeChar 0x3E#21 = 0x1#4 ∧ decodeCode 0x1#4 = .ok .incrementPointer ∧
  ∀ s : State, s.mp < s.tapeLen →
    exec .incrementPointer s = .next (endStep { s with mp := (s.mp + 1) % s.tapeLen }) ∧
    (if s.mp = s.tapeLen - 1 then 0 else s.mp + 1) = (s.mp + 1) % s.tapeLen

/-- R185: DecrementPointer's encoding and effect, in both forms the rule gives. -/
def Obligations.DecrementPointerMovesLeft : Prop :=
  decodeChar 0x3C#21 = 0x2#4 ∧ decodeCode 0x2#4 = .ok .decrementPointer ∧
  ∀ s : State, s.mp < s.tapeLen →
    exec .decrementPointer s = .next (endStep { s with mp := (s.mp + s.tapeLen - 1) % s.tapeLen }) ∧
    (if s.mp = 0 then s.tapeLen - 1 else s.mp - 1) = (s.mp + s.tapeLen - 1) % s.tapeLen

/-- R182, R187: on a tape of one cell both pointer instructions leave MP at 0. -/
def Obligations.OneCellTapeKeepsMp : Prop :=
  ∀ s : State, s.tapeLen = 1 → s.mp = 0 →
    (∃ t, exec .incrementPointer s = .next t ∧ t.mp = 0) ∧ (∃ t, exec .decrementPointer s = .next t ∧ t.mp = 0)

/-- R188: each pointer instruction undoes the other, and TAPE_LEN steps of either restore MP. -/
def Obligations.PointerMovesRoundTrip : Prop :=
  ∀ s : State, s.mp < s.tapeLen →
    (∃ t, andThen (exec .incrementPointer s) (exec .decrementPointer) = .next t ∧ t.mp = s.mp) ∧
    (∃ t, andThen (exec .decrementPointer s) (exec .incrementPointer) = .next t ∧ t.mp = s.mp) ∧
    (∃ t, repeatExec .incrementPointer s.tapeLen s = .next t ∧ t.mp = s.mp) ∧
    (∃ t, repeatExec .decrementPointer s.tapeLen s = .next t ∧ t.mp = s.mp)

/-- R181, R186: the frame of the pointer instructions. They complete in every state, write MP, PC and ENG_STATE only, leave
every cell as it was, perform no I/O, and do not look at the tape at all. -/
def Obligations.PointerFrame : Prop :=
  ∀ (i : Instr) (s : State), (i = .incrementPointer ∨ i = .decrementPointer) →
    ∃ t, exec i s = .next t ∧
      t = { s with mp := t.mp, pc := incPc s.hw s.pc, engState := builtState (incPc s.hw s.pc) s.progLen } ∧
      (∀ a, Memory.read t.tape a = Memory.read s.tape a) ∧ t.env = s.env ∧ t.ioWait = s.ioWait ∧
      (∀ tape' : Memory, exec i { s with tape := tape' } = .next { t with tape := tape' })

/-! ### Cell instructions -/

/-- R190: IncrementValue's encoding and effect. -/
def Obligations.IncrementValueWraps : Prop :=
  decodeChar 0x2B#21 = 0x3#4 ∧ decodeCode 0x3#4 = .ok .incrementValue ∧
  ∀ s : State, s.mp < s.tapeLen → Memory.wf s.tape = true →
    ∃ t, exec .incrementValue s = .next t ∧
      (Memory.read t.tape s.mp).toNat = ((Memory.read s.tape s.mp).toNat + 1) % 256 ∧
      (∀ a, a ≠ s.mp → Memory.read t.tape a = Memory.read s.tape a) ∧
      t = endStep { s with tape := t.tape }

/-- R195: DecrementValue's encoding and effect. -/
def Obligations.DecrementValueWraps : Prop :=
  decodeChar 0x2D#21 = 0x4#4 ∧ decodeCode 0x4#4 = .ok .decrementValue ∧
  ∀ s : State, s.mp < s.tapeLen → Memory.wf s.tape = true →
    ∃ t, exec .decrementValue s = .next t ∧
      (Memory.read t.tape s.mp).toNat = ((Memory.read s.tape s.mp).toNat + 255) % 256 ∧
      (∀ a, a ≠ s.mp → Memory.read t.tape a = Memory.read s.tape a) ∧
      t = endStep { s with tape := t.tape }

/-- R197: increment and decrement undo each other for every cell value, and 256 of either restore the cell: the tape's
contents are the same data. -/
def Obligations.CellRoundTrip : Prop :=
  ∀ s : State, s.mp < s.tapeLen → Memory.wf s.tape = true →
    (∃ t, andThen (exec .incrementValue s) (exec .decrementValue) = .next t ∧ t.tape = s.tape) ∧
    (∃ t, andThen (exec .decrementValue s) (exec .incrementValue) = .next t ∧ t.tape = s.tape) ∧
    (∃ t, repeatExec .incrementValue 256 s = .next t ∧ t.tape = s.tape) ∧
    (∃ t, repeatExec .decrementValue 256 s = .next t ∧ t.tape = s.tape)

/-- R191, R196: the frame of the cell instructions: only the current cell, PC (by the post-increment) and ENG_STATE change,
and no I/O is performed. -/
def Obligations.CellFrame : Prop :=
  ∀ (i : Instr) (s t : State), (i = .incrementValue ∨ i = .decrementValue) → exec i s = .next t →
    t = { s with tape := t.tape, pc := incPc s.hw s.pc, engState := builtState (incPc s.hw s.pc) s.progLen } ∧
    t.env = s.env ∧ t.ioWait = s.ioWait ∧ (∀ a, a ≠ s.mp → Memory.read t.tape a = Memory.read s.tape a)

/-- The model's own stop (log 9; 20_memory.md R88 says that it cannot occur): an instruction that accesses the current cell
stops by name where MP is outside the tape, and `BlockInv` rules that out in a built block. -/
def Obligations.CellAccessOutsideTheTapeStops : Prop :=
  (∀ (i : Instr) (s : State),
    (i = .incrementValue ∨ i = .decrementValue ∨ i = .jumpForward ∨ i = .jumpBackward) → s.tapeLen ≤ s.mp →
    exec i s = .fault (.tapeOutOfRange s.mp)) ∧
  (∀ (s : State) (r : InRsp) (q : List (Option InRsp)), s.env.inputs = some r :: q → s.tapeLen ≤ s.mp →
    exec .inputValue s = .fault (.tapeOutOfRange s.mp)) ∧
  (∀ (s : State) (r : OutRsp) (q : List (Option OutRsp)), s.env.outputs = some r :: q → s.tapeLen ≤ s.mp →
    exec .outputValue s = .fault (.tapeOutOfRange s.mp)) ∧
  (∀ s : State, BlockInv s → s.built = true → s.mp < s.tapeLen)

/-! ### I/O instructions -/

/-- R202, R210, R211: when the output environment answers, OutputValue has emitted exactly the current cell's byte and
completes; OK and ERR give the same state; nothing but the output record, the environment's queue, PC and ENG_STATE changes.
While no answer comes it does not complete. -/
def Obligations.OutputValueEmitsTheCell : Prop :=
  decodeChar 0x2E#21 = 0x5#4 ∧ decodeCode 0x5#4 = .ok .outputValue ∧
  (∀ (s : State) (r : OutRsp) (q : List (Option OutRsp)),
    s.mp < s.tapeLen → s.ioWait = .idle → s.env.outputs = some r :: q →
    exec .outputValue s = .next (endStep
      { s with env := { s.env with outputs := q, emitted := s.env.emitted ++ [Memory.read s.tape s.mp] } })) ∧
  (∀ s : State, s.env.outputs.head?.getD none = none →
    ∃ t, exec .outputValue s = .next t ∧ t.ioWait = .output ∧ t.pc = s.pc)

/-- R215, R216: one input answer is consumed; an accepted byte is written to the current cell, a rejected answer leaves every
cell as it was and is not retried; the frame is the current cell, the input record and queue, PC and ENG_STATE. -/
def Obligations.InputValueWritesAcceptedBytes : Prop :=
  decodeChar 0x2C#21 = 0x6#4 ∧ decodeCode 0x6#4 = .ok .inputValue ∧
  ∀ (s : State) (r : InRsp) (q : List (Option InRsp)),
    s.mp < s.tapeLen → Memory.wf s.tape = true → s.ioWait = .idle → s.env.inputs = some r :: q →
    ∃ t, exec .inputValue s = .next t ∧
      t = endStep { s with tape := t.tape, env := { s.env with inputs := q, consumed := s.env.consumed ++ [r] } } ∧
      (∀ a, a ≠ s.mp → Memory.read t.tape a = Memory.read s.tape a) ∧
      (∀ b, r = .ok b → b.toNat ≤ s.hw.inputAcceptMax → Memory.read t.tape s.mp = b) ∧
      (∀ b, r = .ok b → s.hw.inputAcceptMax < b.toNat → t.tape = s.tape) ∧
      (r = .err → t.tape = s.tape)

/-- 43_io.md R203, R206, with the model's queues and record (log 3, log 15): while no answer comes the step has not completed: IO_WAIT says
so, and PC, MP, every cell, ENG_STATE and the records are those from before the step. -/
def Obligations.IoInstructionsWait : Prop :=
  (∀ s : State, s.env.inputs = [] → exec .inputValue s = .next { s with ioWait := .input }) ∧
  (∀ (s : State) (q : List (Option InRsp)), s.env.inputs = none :: q →
    exec .inputValue s = .next { s with ioWait := .input, env := { s.env with inputs := q } }) ∧
  (∀ s : State, s.env.outputs = [] → exec .outputValue s = .next { s with ioWait := .output }) ∧
  (∀ (s : State) (q : List (Option OutRsp)), s.env.outputs = none :: q →
    exec .outputValue s = .next { s with ioWait := .output, env := { s.env with outputs := q } })

/-- 00_scope.md R14, 43_io.md R201, R204, with the model's queues (log 3): a waiting step that is answered does exactly what
the instruction would have done had the answer come at once, and then answers the host. -/
def Obligations.AnsweredWaitCompletesTheStep : Prop :=
  (∀ (s : State) (r : InRsp) (q : List (Option InRsp)), s.ioWait = .input → s.env.inputs = some r :: q →
    step s = andThen (exec .inputValue { s with ioWait := .idle }) fun t => .next (answerStep t)) ∧
  (∀ (s : State) (r : OutRsp) (q : List (Option OutRsp)), s.ioWait = .output → s.env.outputs = some r :: q →
    step s = andThen (exec .outputValue { s with ioWait := .idle }) fun t => .next (answerStep t))

/-- 43_io.md R203, R206, 70_reset_and_hazards.md R324, with the model's conventions (log 2, log 4): a step that is never
answered waits for ever: however many steps are taken, the state is the waiting one, and each STEP of the host is refused. -/
def Obligations.UnansweredStepIsStuck : Prop :=
  ∀ (s : State) (n : Nat), s.env.cmds = [] →
    (s.ioWait = .input ∧ s.env.inputs = [] ∨ s.ioWait = .output ∧ s.env.outputs = []) →
    runSteps (n + 1) s = .next { s with env := { s.env with resp := some .refused } }

/-! ### Control instructions -/

/-- R220: JumpForward's encoding, its three outcomes, and their whole effect. -/
def Obligations.JumpForwardSkipsWhenZero : Prop :=
  decodeChar 0x5B#21 = 0x7#4 ∧ decodeCode 0x7#4 = .ok .jumpForward ∧
  ∀ s : State, s.mp < s.tapeLen →
    (Memory.read s.tape s.mp ≠ 0#8 → exec .jumpForward s = .next (endStep s)) ∧
    (∀ j, Memory.read s.tape s.mp = 0#8 → matchFwd s.progRead s.progLen s.pc = some j →
      exec .jumpForward s = .next (endStep { s with pc := j })) ∧
    (Memory.read s.tape s.mp = 0#8 → matchFwd s.progRead s.progLen s.pc = none →
      exec .jumpForward s = .next
        { s with faultCause := .runUnmatchedJF, faultInfo := BitVec.ofNat 32 s.pc, engState := .fault })

/-- R228: JumpBackward's encoding, its three outcomes, and their whole effect. -/
def Obligations.JumpBackwardReturnsWhenNonzero : Prop :=
  decodeChar 0x5D#21 = 0x8#4 ∧ decodeCode 0x8#4 = .ok .jumpBackward ∧
  ∀ s : State, s.mp < s.tapeLen →
    (Memory.read s.tape s.mp = 0#8 → exec .jumpBackward s = .next (endStep s)) ∧
    (∀ k, Memory.read s.tape s.mp ≠ 0#8 → matchBwd s.progRead s.progLen s.pc = some k →
      exec .jumpBackward s = .next (endStep { s with pc := k })) ∧
    (Memory.read s.tape s.mp ≠ 0#8 → matchBwd s.progRead s.progLen s.pc = none →
      exec .jumpBackward s = .next
        { s with faultCause := .runUnmatchedJB, faultInfo := BitVec.ofNat 32 s.pc, engState := .fault })

/-- R221, R229: the frame of the jumps: no cell, no MP, no I/O; only PC, ENG_STATE and, for the fault, its cause and info. -/
def Obligations.JumpFrame : Prop :=
  ∀ (i : Instr) (s t : State), (i = .jumpForward ∨ i = .jumpBackward) → exec i s = .next t →
    t = { s with pc := t.pc, engState := t.engState, faultCause := t.faultCause, faultInfo := t.faultInfo } ∧
    (∀ a, Memory.read t.tape a = Memory.read s.tape a) ∧ t.mp = s.mp ∧ t.env = s.env ∧ t.ioWait = s.ioWait ∧
    (t.engState ≠ .fault → t.faultCause = s.faultCause ∧ t.faultInfo = s.faultInfo)

/-- R223: after a taken JumpForward the block stands at the entry after the matching bracket, HALTED exactly when that is the
program's end. -/
def Obligations.TakenJumpForwardLanding : Prop :=
  ∀ s : State, BlockInv s → s.engState = .running → s.progRead s.pc = encodeCode .jumpForward → Memory.read s.tape s.mp = 0#8 →
    ∃ j t, matchFwd s.progRead s.progLen s.pc = some j ∧ exec .jumpForward s = .next t ∧ t.pc = j + 1 ∧
      (j + 1 = s.progLen → t.engState = .halted) ∧
      (j + 1 ≠ s.progLen → t.engState = .running ∧ fetchCode t = s.progRead (j + 1))

/-- The landing of JumpBackward (44_control.md R228, R241) in a built block: a taken one lands inside the loop, on the entry
after the matching `[`, which lies before the `]`; the block goes on RUNNING. -/
def Obligations.TakenJumpBackwardLanding : Prop :=
  ∀ s : State, BlockInv s → s.engState = .running → s.progRead s.pc = encodeCode .jumpBackward → Memory.read s.tape s.mp ≠ 0#8 →
    ∃ k t, matchBwd s.progRead s.progLen s.pc = some k ∧ k < s.pc ∧ exec .jumpBackward s = .next t ∧
      t.pc = k + 1 ∧ t.engState = .running

/-- R235, R236: NoOp's effect is the post-increment alone, and every character but the eight decodes to it. -/
def Obligations.NoOpOnlyAdvances : Prop :=
  decodeCode 0x0#4 = .ok .noOp ∧
  (∀ c : CharCode, c ≠ 0x3E#21 → c ≠ 0x3C#21 → c ≠ 0x2B#21 → c ≠ 0x2D#21 → c ≠ 0x2E#21 → c ≠ 0x2C#21 → c ≠ 0x5B#21 →
    c ≠ 0x5D#21 → decodeChar c = 0x0#4) ∧
  ∀ s : State, exec .noOp s = .next
    { s with pc := incPc s.hw s.pc, engState := builtState (incPc s.hw s.pc) s.progLen }

/-! ### Bracket matching -/

/-- The meaning of MatchFwd without a counter (44_control.md R240): the first index from `i` on at which as many `]` as `[`
have been passed, inside the program. -/
def Obligations.MatchFwdIsTheFirstBalance : Prop :=
  ∀ (P : Nat → Code) (n i j : Nat),
    matchFwd P n i = some j ↔
      P i = codeJF ∧ i < j ∧ j < n ∧ countCode P codeJF i j = countCode P codeJB i j ∧
      ∀ k, i ≤ k → k < j → countCode P codeJB i k < countCode P codeJF i k

/-- The meaning of MatchBwd without a counter (44_control.md R241): the first index from `j` down at which as many `[` as `]`
have been passed. -/
def Obligations.MatchBwdIsTheFirstBalance : Prop :=
  ∀ (P : Nat → Code) (n i j : Nat),
    matchBwd P n j = some i ↔
      P j = codeJB ∧ i < j ∧ j < n ∧ countCode P codeJF i j = countCode P codeJB i j ∧
      ∀ k, i < k → k ≤ j → countCode P codeJF k j < countCode P codeJB k j

/-- R244 (headline): in a balanced program MatchFwd and MatchBwd pair every bracket with its partner. -/
def Obligations.BracketsPairUp : Prop :=
  ∀ (P : Nat → Code) (n : Nat), Balanced P n →
    (∀ i, i < n → P i = codeJF →
      ∃ j, matchFwd P n i = some j ∧ i < j ∧ j < n ∧ P j = codeJB ∧ matchBwd P n j = some i) ∧
    (∀ j, j < n → P j = codeJB →
      ∃ i, matchBwd P n j = some i ∧ i < j ∧ P i = codeJF ∧ matchFwd P n i = some j)

/-- 44_control.md R242, R243: Validate answers OK exactly for a balanced program, and otherwise names the smallest unmatched
index with the cause of the bracket there. -/
def Obligations.ValidateNamesTheSmallestUnmatched : Prop :=
  ∀ (P : Nat → Code) (n : Nat),
    (validate P n = none ↔ Balanced P n) ∧
    (∀ cause u, validate P n = some (cause, u) ↔
      u < n ∧ (P u = codeJF ∧ matchFwd P n u = none ∧ cause = .loadUnmatchedJF ∨
        P u = codeJB ∧ matchBwd P n u = none ∧ cause = .loadUnmatchedJB) ∧
      ∀ i, i < u → (P i = codeJF → matchFwd P n i ≠ none) ∧ (P i = codeJB → matchBwd P n i ≠ none))

/-- 44_control.md R243 (headline): the one-pass form with a depth counter and a stack of open brackets gives the result of
the definition by MatchFwd and MatchBwd, for every program. -/
def Obligations.OnePassValidateAgrees : Prop :=
  ∀ (P : Nat → Code) (n : Nat), validateOnePass P n = validate P n

/-! ### Faults -/

/-- R260: a transition that enters FAULT writes the cause, the info word and ENG_STATE, answers FAULTED with the cause, and
leaves PC, MP, the tape, the program and every other element as they were. -/
def Obligations.FaultEntryIsPrecise : Prop :=
  ∀ s t : State, step s = .next t → s.engState ≠ .fault → t.engState = .fault →
    t.env.resp = some (.faulted t.faultCause) ∧ t.faultCause ≠ .none ∧
    t = { s with faultCause := t.faultCause, faultInfo := t.faultInfo, engState := .fault, env := t.env } ∧
    t.env.emitted = s.env.emitted ∧ t.env.consumed = s.env.consumed

/-- R261: what each command does in FAULT; only the answer to the host and its queue change. -/
def Obligations.FaultIsSticky : Prop :=
  ∀ (s s0 : State) (c : Cmd), nextMove s = (.cmd c, s0) → s0.engState = .fault → s0.ioWait = .idle →
    (c = .step → step s = .next { s0 with env := { s0.env with resp := some .refused } }) ∧
    (c = .buildCommit → step s = .next { s0 with env := { s0.env with resp := some .ignored } }) ∧
    (∀ ch, c = .progPushChar ch → step s = .next { s0 with env := { s0.env with resp := some .ignored } }) ∧
    (∀ k, c = .progPushInstr k → step s = .next { s0 with env := { s0.env with resp := some .ignored } }) ∧
    (∀ i m, c = .readProg i m → step s = .next { s0 with env := { s0.env with resp := some (.prog .invalid 0#4) } }) ∧
    (∀ i, c = .readTape i → step s = .next { s0 with env := { s0.env with resp := some (.tape .invalid 0#8) } }) ∧
    (∀ a, c = .readCsr a →
      ∃ v, step s = .next { s0 with env := { s0.env with resp := some v } } ∧
        (∀ w, csrWord s0 a = some w → v = .csr .ok w) ∧ (csrWord s0 a = none → v = .csr .invalid 0#32) ∧
        (a = 0x00#8 → v = .csr .ok 4#32) ∧ (a = 0x01#8 → v = .csr .ok (BitVec.ofNat 32 s0.faultCause.code)) ∧
        (a = 0x02#8 → v = .csr .ok s0.faultInfo) ∧ (a = 0x03#8 → v = .csr .ok (BitVec.ofNat 32 s0.pc)))

/-- R262: FAULT is left only by RESET and BUILD_BEGIN, to UNBUILT and LOADING, and the old VM is gone. -/
def Obligations.OnlyResetAndBuildBeginLeaveFault : Prop :=
  ∀ s t : State, s.engState = .fault → s.ioWait = .idle → step s = .next t → t.engState ≠ .fault →
    ((∃ s0, nextMove s = (.cmd .reset, s0)) ∧ t.engState = .unbuilt ∨
      (∃ s0 m v w p, nextMove s = (.cmd (.buildBegin m v w p), s0)) ∧ t.engState = .loading) ∧
    t.pc = 0 ∧ t.mp = 0 ∧ t.tapeLen = 0 ∧ t.progLen = 0 ∧ t.progValid = false ∧ t.faultCause = .none ∧ t.faultInfo = 0#32

/-- R301: what each command does in UNBUILT; a block leaves UNBUILT only through BUILD_BEGIN. -/
def Obligations.UnbuiltCommands : Prop :=
  ∀ (s s0 : State) (c : Cmd), nextMove s = (.cmd c, s0) → s0.engState = .unbuilt → s0.ioWait = .idle →
    (c = .step → step s = .next { s0 with env := { s0.env with resp := some .refused } }) ∧
    (c = .buildCommit → step s = .next { s0 with env := { s0.env with resp := some .ignored } }) ∧
    (∀ ch, c = .progPushChar ch → step s = .next { s0 with env := { s0.env with resp := some .ignored } }) ∧
    (∀ k, c = .progPushInstr k → step s = .next { s0 with env := { s0.env with resp := some .ignored } }) ∧
    (∀ i m, c = .readProg i m → step s = .next { s0 with env := { s0.env with resp := some (.prog .invalid 0#4) } }) ∧
    (∀ i, c = .readTape i → step s = .next { s0 with env := { s0.env with resp := some (.tape .invalid 0#8) } }) ∧
    (∀ a, c = .readCsr a → ∃ v, step s = .next { s0 with env := { s0.env with resp := some v } } ∧
      (∀ w, csrWord s0 a = some w → v = .csr .ok w) ∧ (csrWord s0 a = none → v = .csr .invalid 0#32) ∧
      (a = 0x00#8 → v = .csr .ok 0#32)) ∧
    (∀ m v w p, c = .buildBegin m v w p → ∃ t, step s = .next t ∧ t.engState = .loading) ∧
    (∀ t, step s = .next t → t.engState ≠ .unbuilt → ∃ m v w p, c = .buildBegin m v w p)

/-! ### Reset and build -/

/-- R53, R300: the values after RESET, from every state, and after power-on (`State.reset`). The tape's and the program
store's contents are unspecified there, and the statement says nothing of them. -/
def Obligations.ResetValues : Prop :=
  (∀ s s0 : State, nextMove s = (.cmd .reset, s0) →
    ∃ t, step s = .next t ∧ t.env.resp = some .ok ∧ t.hw = s.hw ∧
      t.engState = .unbuilt ∧ t.pc = 0 ∧ t.mp = 0 ∧ t.tapeLen = 0 ∧ t.progValid = false ∧ t.progLen = 0 ∧
      t.faultCause = .none ∧ t.faultInfo = 0#32 ∧ t.ioWait = .idle ∧ t.stage = Stage.empty) ∧
  (State.reset.engState = .unbuilt ∧ State.reset.pc = 0 ∧ State.reset.mp = 0 ∧ State.reset.tapeLen = 0 ∧
    State.reset.progValid = false ∧ State.reset.progLen = 0 ∧ State.reset.faultCause = .none ∧
    State.reset.faultInfo = 0#32 ∧ State.reset.ioWait = .idle ∧ State.reset.stage = Stage.empty) ∧
  Stage.empty = { mode := .defaultProgram, tsValid := false, tsValue := 0#32, inputPresent := false, len := 0,
                  overflow := false, badopSeen := false, badopIndex := 0 }

/-- R305: BUILD_BEGIN, from every state. -/
def Obligations.BuildBeginStartsABuild : Prop :=
  ∀ (s s0 : State) (mode : BuildMode) (tsValid : Bool) (tsValue : Word) (inputPresent : Bool),
    nextMove s = (.cmd (.buildBegin mode tsValid tsValue inputPresent), s0) →
    ∃ t, step s = .next t ∧ t.env.resp = some .ok ∧ t.hw = s.hw ∧ t.pc = 0 ∧ t.mp = 0 ∧ t.tapeLen = 0 ∧
      t.progValid = false ∧ t.progLen = 0 ∧ t.faultCause = .none ∧ t.faultInfo = 0#32 ∧ t.ioWait = .idle ∧
      t.engState = .loading ∧
      t.stage = { mode := mode, tsValid := tsValid, tsValue := tsValue, inputPresent := inputPresent, len := 0,
                  overflow := false, badopSeen := false, badopIndex := 0 }

/-- R103 and R104: what a push does, accepted, beyond capacity, and where it is ignored; and that a push beyond capacity, or
of a reserved code into a build that has room, makes the build fail at the commit that follows, where the configuration checks
that come first (R255) pass. -/
def Obligations.PushesAppend : Prop :=
  ∀ (s s0 : State) (c : Cmd) (k : Code), nextMove s = (.cmd c, s0) →
    ((∃ ch, c = .progPushChar ch ∧ k = decodeChar ch) ∨ c = .progPushInstr k) →
    (¬ (s0.engState = .loading ∧ s0.stage.mode = .suppliedProgram) →
      step s = .next { s0 with env := { s0.env with resp := some .ignored } }) ∧
    (s0.engState = .loading → s0.stage.mode = .suppliedProgram → ¬ s0.stage.len < s0.hw.progMax →
      step s = .next { s0 with stage := { s0.stage with overflow := true }, env := { s0.env with resp := some .ok } }) ∧
    (s0.engState = .loading → s0.stage.mode = .suppliedProgram → s0.stage.len < s0.hw.progMax → Store.wf s0.prog = true →
      ∃ t, step s = .next t ∧
        t = { s0 with prog := t.prog, stage := t.stage, env := { s0.env with resp := some .ok } } ∧
        t.progRead s0.stage.len = k ∧ (∀ i, i ≠ s0.stage.len → t.progRead i = s0.progRead i) ∧
        (9 ≤ k.toNat → s0.stage.badopSeen = false →
          t.stage = { s0.stage with len := s0.stage.len + 1, badopSeen := true, badopIndex := s0.stage.len }) ∧
        (k.toNat < 9 ∨ s0.stage.badopSeen = true → t.stage = { s0.stage with len := s0.stage.len + 1 })) ∧
    (s0.engState = .loading → s0.stage.mode = .suppliedProgram → s0.stage.inputPresent = true → 30000 ≤ s0.hw.tapeMax →
      (s0.stage.tsValid = true → s0.stage.tsValue ≠ 0#32 ∧ s0.stage.tsValue.toNat ≤ s0.hw.tapeMax) →
      ∃ t, step s = .next t ∧
        (¬ s0.stage.len < s0.hw.progMax → ∃ u, doCmd .buildCommit t = .next u ∧ u.engState = .fault ∧
          u.faultCause = .loadTooLong ∧ u.env.resp = some (.faulted .loadTooLong)) ∧
        (s0.stage.len < s0.hw.progMax → s0.stage.overflow = false → 9 ≤ k.toNat → ∃ u, doCmd .buildCommit t = .next u ∧
          u.engState = .fault ∧ u.faultCause = .loadBadOpcode ∧ u.env.resp = some (.faulted .loadBadOpcode)))

/-- R255, R307: the checks of BUILD_COMMIT in their order, of which the first that fails is reported; BUILD_COMMIT outside
LOADING is ignored. -/
def Obligations.BuildChecksInOrder : Prop :=
  (∀ s s0 : State, nextMove s = (.cmd .buildCommit, s0) → s0.engState ≠ .loading →
    step s = .next { s0 with env := { s0.env with resp := some .ignored } }) ∧
  ∀ s s0 : State, nextMove s = (.cmd .buildCommit, s0) → s0.engState = .loading →
    (s0.stage.inputPresent = false →
      step s = .next (answer (.faulted .configNoInput) (raise .configNoInput 0#32 s0))) ∧
    (s0.stage.inputPresent = true → s0.stage.tsValid = true →
      (s0.stage.tsValue = 0#32 ∨ s0.hw.tapeMax < s0.stage.tsValue.toNat) →
      step s = .next (answer (.faulted .configBadTapeSize) (raise .configBadTapeSize s0.stage.tsValue s0))) ∧
    (s0.stage.inputPresent = true → 30000 ≤ s0.hw.tapeMax →
      (s0.stage.tsValid = true → s0.stage.tsValue ≠ 0#32 ∧ s0.stage.tsValue.toNat ≤ s0.hw.tapeMax) →
      s0.stage.mode = .suppliedProgram →
      (s0.stage.overflow = true →
        step s = .next (answer (.faulted .loadTooLong) (raise .loadTooLong (BitVec.ofNat 32 s0.hw.progMax) s0))) ∧
      (s0.stage.overflow = false → s0.stage.badopSeen = true →
        step s = .next (answer (.faulted .loadBadOpcode)
          (raise .loadBadOpcode (BitVec.ofNat 32 s0.stage.badopIndex) s0))) ∧
      (∀ cause u, s0.stage.overflow = false → s0.stage.badopSeen = false →
        validate s0.progRead s0.stage.len = some (cause, u) →
        step s = .next (answer (.faulted cause) (raise cause (BitVec.ofNat 32 u) s0)))) ∧
    (s0.stage.inputPresent = true → 30000 ≤ s0.hw.tapeMax →
      (s0.stage.tsValid = true → s0.stage.tsValue ≠ 0#32 ∧ s0.stage.tsValue.toNat ≤ s0.hw.tapeMax) →
      s0.stage.mode = .defaultProgram → ∃ t, step s = .next t ∧ t.env.resp = some .ok)

/-- 70_reset_and_hazards.md R310, 10_state.md R54: a build that passes its checks constructs the VM: the tape length, every
cell 0, MP and PC 0, the supplied program in place or 10 NoOps, RUNNING, or HALTED when the program is empty, and, in a state
of the invariant, FAULT_CAUSE, FAULT_INFO and IO_WAIT 0. Two clauses are the model's own: that an index at TAPE_LEN or above
reads 0 too (log 7), and that the staging registers keep their values (log 20). -/
def Obligations.BuildConstructsTheVm : Prop :=
  ∀ s s0 : State, nextMove s = (.cmd .buildCommit, s0) → s0.engState = .loading →
    s0.stage.inputPresent = true → 30000 ≤ s0.hw.tapeMax → Store.wf s0.prog = true →
    (s0.stage.tsValid = true → s0.stage.tsValue ≠ 0#32 ∧ s0.stage.tsValue.toNat ≤ s0.hw.tapeMax) →
    (s0.stage.mode = .suppliedProgram → s0.stage.overflow = false ∧ s0.stage.badopSeen = false ∧
      Balanced s0.progRead s0.stage.len) →
    ∃ t, step s = .next t ∧ t.env.resp = some .ok ∧
      t.tapeLen = (if s0.stage.tsValid then s0.stage.tsValue.toNat else 30000) ∧
      (∀ a, a < t.tapeLen → Memory.read t.tape a = 0#8) ∧ (∀ a, t.tapeLen ≤ a → Memory.read t.tape a = 0#8) ∧
      t.mp = 0 ∧ t.pc = 0 ∧
      (s0.stage.mode = .suppliedProgram → t.progLen = s0.stage.len ∧ ∀ i, t.progRead i = s0.progRead i) ∧
      (s0.stage.mode = .defaultProgram → t.progLen = 10 ∧ ∀ i, i < 10 → t.progRead i = 0x0#4) ∧
      t.progValid = decide (1 ≤ t.progLen) ∧
      t.engState = (if t.progLen = 0 then .halted else .running) ∧
      t.faultCause = s0.faultCause ∧ t.faultInfo = s0.faultInfo ∧ t.ioWait = s0.ioWait ∧
      (BlockInv s0 → t.faultCause = .none ∧ t.faultInfo = 0#32 ∧ t.ioWait = .idle) ∧ t.stage = s0.stage

/-- R312: the default build, and the one without an input device, from every state in which no step waits. -/
def Obligations.DefaultBuild : Prop :=
  ∀ (s : State) (v : Word) (rest : List Cmd) (present : Bool), s.hw.wf = true → s.ioWait = .idle → Store.wf s.prog = true →
    s.env.cmds = .buildBegin .defaultProgram false v present :: .buildCommit :: rest →
    ∃ t, runSteps 2 s = .next t ∧ t.env.cmds = rest ∧
      (present = true → t.tapeLen = 30000 ∧ t.mp = 0 ∧ t.pc = 0 ∧ t.progValid = true ∧ t.progLen = 10 ∧
        (∀ i, i < 10 → decodeCode (t.progRead i) = .ok .noOp) ∧ t.engState = .running ∧ t.env.resp = some .ok) ∧
      (present = false → t.engState = .fault ∧ t.faultCause = .configNoInput ∧
        t.env.resp = some (.faulted .configNoInput))

/-! ### Host reads and waiting steps -/

/-- 10_state.md R48, R49: the register map, read by the host, in a state of the invariant. PROG_LEN and CUR_INSTR are stated
outside FAULT only, where R39 and R260 do not pull apart (log 8). -/
def Obligations.RegisterMap : Prop :=
  ∀ (s s0 : State) (a : Byte), nextMove s = (.cmd (.readCsr a), s0) → BlockInv s0 →
    ∃ st v, step s = .next { s0 with env := { s0.env with resp := some (.csr st v) } } ∧
      (a.toNat < 16 → st = .ok) ∧ (16 ≤ a.toNat → st = .invalid ∧ v = 0#32) ∧
      (a = 0x00#8 → v.toNat = s0.engState.code + 8 * s0.ioWait.code) ∧
      (a = 0x01#8 → v.toNat = s0.faultCause.code) ∧
      (a = 0x02#8 → v = s0.faultInfo) ∧
      (a = 0x03#8 → v.toNat = s0.pc) ∧
      (a = 0x04#8 → v.toNat = s0.mp) ∧
      (a = 0x05#8 → v.toNat = if s0.built then (Memory.read s0.tape s0.mp).toNat else 0) ∧
      (a = 0x06#8 → v.toNat = if s0.built then s0.tapeLen else 0) ∧
      (a = 0x07#8 → s0.engState ≠ .fault → v.toNat = s0.progLen + if s0.progValid then 2 ^ 31 else 0) ∧
      (a = 0x08#8 → s0.engState ≠ .fault →
        v.toNat = if s0.pc < s0.progLen then (s0.progRead s0.pc).toNat + 16 else 0) ∧
      (a = 0x09#8 → v.toNat = s0.hw.progMax) ∧
      (a = 0x0A#8 → v.toNat = s0.hw.tapeMax) ∧
      (a = 0x0B#8 → v.toNat = s0.hw.inputAcceptMax) ∧
      (a = 0x0C#8 → v.toNat = (if s0.stage.mode = .suppliedProgram then 1 else 0) + (if s0.stage.tsValid then 2 else 0) +
        (if s0.stage.inputPresent then 4 else 0) + (if s0.stage.overflow then 8 else 0) +
        (if s0.stage.badopSeen then 16 else 0)) ∧
      (a = 0x0D#8 → v.toNat = s0.stage.len) ∧
      (a = 0x0E#8 → v = s0.stage.tsValue) ∧
      (a = 0x0F#8 → v.toNat = s0.stage.badopIndex)

/-- R51: CUR_INSTR's bit 4 is 1 exactly in RUNNING, and then its low bits are the code the next step executes. -/
def Obligations.CurInstrShowsTheNextInstruction : Prop :=
  ∀ s : State, BlockInv s →
    ((curInstrWord s).getLsbD 4 = true ↔ s.engState = .running) ∧
    (s.engState = .running → (curInstrWord s).setWidth 4 = fetchCode s)

/-- R102: READ_TAPE. -/
def Obligations.ReadTapeAnswers : Prop :=
  ∀ (s s0 : State) (i : Word), nextMove s = (.cmd (.readTape i), s0) →
    ((s0.engState = .running ∨ s0.engState = .halted) → i.toNat < s0.tapeLen →
      step s = .next { s0 with env := { s0.env with resp := some (.tape .ok (Memory.read s0.tape i.toNat)) } }) ∧
    (¬ ((s0.engState = .running ∨ s0.engState = .halted) ∧ i.toNat < s0.tapeLen) →
      step s = .next { s0 with env := { s0.env with resp := some (.tape .invalid 0#8) } })

/-- R101: READ_PROG in both modes, for an index the port can carry. -/
def Obligations.ReadProgAnswers : Prop :=
  ∀ (s s0 : State) (i : Nat) (m : ReadMode), nextMove s = (.cmd (.readProg i m), s0) → i < 2 ^ s0.hw.pcW →
    (m = .index → s0.ioWait ≠ .idle → step s = .next { s0 with env := { s0.env with resp := some .refused } }) ∧
    ((m = .get ∨ s0.ioWait = .idle) →
      (¬ (s0.engState = .running ∨ s0.engState = .halted) →
        step s = .next { s0 with env := { s0.env with resp := some (.prog .invalid 0#4) } }) ∧
      ((s0.engState = .running ∨ s0.engState = .halted) → s0.progValid = true → i < s0.progLen →
        step s = .next { s0 with env := { s0.env with resp := some (.prog .ok (s0.progRead i)) } }) ∧
      ((s0.engState = .running ∨ s0.engState = .halted) → ¬ (s0.progValid = true ∧ i < s0.progLen) →
        (m = .get → step s = .next { s0 with env := { s0.env with resp := some (.prog .none 0#4) } }) ∧
        (m = .index → step s = .next
          { s0 with faultCause := .bounds, faultInfo := BitVec.ofNat 32 i, engState := .fault,
                    env := { s0.env with resp := some (.faulted .bounds) } })))

/-- R321: what each command does while a step waits on I/O. -/
def Obligations.CommandsDuringAWait : Prop :=
  ∀ (s s0 : State) (c : Cmd), nextMove s = (.cmd c, s0) → s0.ioWait ≠ .idle → s0.engState = .running →
    (c = .step → step s = .next { s0 with env := { s0.env with resp := some .refused } }) ∧
    (∀ i, c = .readProg i .index → step s = .next { s0 with env := { s0.env with resp := some .refused } }) ∧
    (∀ ch, c = .progPushChar ch → step s = .next { s0 with env := { s0.env with resp := some .ignored } }) ∧
    (∀ k, c = .progPushInstr k → step s = .next { s0 with env := { s0.env with resp := some .ignored } }) ∧
    (c = .buildCommit → step s = .next { s0 with env := { s0.env with resp := some .ignored } }) ∧
    (∀ a, c = .readCsr a → ∃ v, step s = .next { s0 with env := { s0.env with resp := some v } } ∧
      (∀ w, csrWord s0 a = some w → v = .csr .ok w) ∧ (csrWord s0 a = none → v = .csr .invalid 0#32) ∧
      (a = 0x03#8 → v = .csr .ok (BitVec.ofNat 32 s0.pc))) ∧
    (∀ i, c = .readTape i → ∃ v, step s = .next { s0 with env := { s0.env with resp := some v } } ∧
      v = if i.toNat < s0.tapeLen then .tape .ok (Memory.read s0.tape i.toNat) else .tape .invalid 0#8) ∧
    (∀ i, c = .readProg i .get → i < 2 ^ s0.hw.pcW → ∃ v, step s = .next { s0 with env := { s0.env with resp := some v } } ∧
      v = if s0.progValid = true ∧ i < s0.progLen then .prog .ok (s0.progRead i) else .prog .none 0#4) ∧
    (c.discardsVm = true → ∃ t, step s = .next t ∧ t.ioWait = .idle ∧ t.env.resp = some .ok)

/-- 70_reset_and_hazards.md R320: RESET or BUILD_BEGIN during a wait aborts the step: nothing is consumed, BUILD_BEGIN leaves
the tape as it was, an aborted input emits nothing, and of an aborted output both outcomes are admitted (the free value of
log 5). -/
def Obligations.AbortedStepHasNoEffect : Prop :=
  ∀ (s s0 t : State) (c : Cmd), nextMove s = (.cmd c, s0) → c.discardsVm = true → step s = .next t →
    t.ioWait = .idle ∧ t.env.consumed = s0.env.consumed ∧ t.pc = 0 ∧
    (c ≠ .reset → t.tape = s0.tape ∧ t.prog = s0.prog) ∧
    (s0.ioWait ≠ .output → t.env.emitted = s0.env.emitted) ∧
    (s0.ioWait = .output → t.env.emitted = s0.env.emitted ∨ t.env.emitted = s0.env.emitted ++ [Memory.read s0.tape s0.mp])

/-! ### Whole-machine rules -/

/-- The invariant holds after power-on of the model's instance (log 1), and after RESET of every instance that obeys R8, with
the tape and program contents of log 6. -/
def Obligations.InvariantHoldsAtReset : Prop :=
  BlockInv State.reset ∧ ∀ (hw : Params) (env : Env), hw.wf = true → BlockInv (State.resetOf hw env)

/-- The invariant is kept by every step (headline): the memories keep their canonical form, MP stays on the tape, PC in its
register, ENG_STATE says where PC stands, the program stays balanced and free of reserved codes (10_state.md R33, R35, R39,
R40, R42, R43; 44_control.md R242, R247; 30_encoding.md R129). -/
def Obligations.EveryStepKeepsTheInvariant : Prop :=
  ∀ s t : State, BlockInv s → step s = .next t → BlockInv t

/-- No machine of the invariant ever stops (headline): from every such state, however many steps are taken, each one answers a
next state. Neither of the model's own stops (log 9, log 10) is ever reached (20_memory.md R88, 40_step.md R152). -/
def Obligations.NoRunEverStops : Prop :=
  ∀ (s : State) (n : Nat), BlockInv s → ∃ t, runSteps n s = .next t

/-- R247 (headline): in no run from a state of the invariant does a jump find its bracket unmatched. -/
def Obligations.RunsNeverMeetAnUnmatchedBracket : Prop :=
  ∀ (s t : State) (n : Nat), BlockInv s → s.faultCause ≠ .runUnmatchedJF → s.faultCause ≠ .runUnmatchedJB →
    runSteps n s = .next t → t.faultCause ≠ .runUnmatchedJF ∧ t.faultCause ≠ .runUnmatchedJB

/-- R94 and 10_state.md R30: no step changes the program, its length or the tape's length while the block is built. -/
def Obligations.BuiltProgramIsImmutable : Prop :=
  ∀ s t : State, s.built = true → step s = .next t → t.built = true →
    t.prog = s.prog ∧ t.progLen = s.progLen ∧ t.progValid = s.progValid ∧ t.tapeLen = s.tapeLen ∧ t.hw = s.hw

/-- 10_state.md R41, 40_step.md R155: a HALTED block never goes back to RUNNING in a step, a step that is no RESET and no
BUILD_BEGIN never lowers its PC, and it leaves HALTED only by RESET, BUILD_BEGIN or the BOUNDS fault of READ_PROG in INDEX
mode. That the third leaves it is the model's choice of log 16, which follows R101 where R41 names the first two alone. -/
def Obligations.HaltedIsTerminal : Prop :=
  ∀ s t : State, BlockInv s → s.engState = .halted → step s = .next t →
    t.engState ≠ .running ∧
    (∀ c, s.nextCmd = some c → c.discardsVm = false → s.pc ≤ t.pc ∧
      (t.engState = .halted ∨ (∃ i, c = .readProg i .index) ∧ t.engState = .fault ∧ t.faultCause = .bounds))

/-- 20_memory.md R86, R91, 10_state.md R31: a step emits at most one byte or consumes at most one input answer, not both,
it writes at most the current cell, and in a block that is built and stays built a host command other than STEP emits, consumes
and writes nothing. -/
def Obligations.OneTransactionAStep : Prop :=
  ∀ s t : State, s.built = true → step s = .next t → t.built = true →
    (t.env.emitted = s.env.emitted ∨ t.env.emitted = s.env.emitted ++ [Memory.read s.tape s.mp]) ∧
    (t.env.consumed = s.env.consumed ∨ ∃ r, t.env.consumed = s.env.consumed ++ [r]) ∧
    (t.env.emitted = s.env.emitted ∨ t.env.consumed = s.env.consumed) ∧
    (∀ a, a ≠ s.mp → Memory.read t.tape a = Memory.read s.tape a) ∧
    (∀ c, s.nextCmd = some c → c ≠ .step →
      t.env.emitted = s.env.emitted ∧ t.env.consumed = s.env.consumed ∧ t.tape = s.tape ∧ t.mp = s.mp ∧ t.pc = s.pc)

/-- 00_scope.md R16, with the model's host (log 2: an empty queue means STEP): a run under `n` units of fuel is a run of the
machine in which exactly `n` host STEP commands were handled, whatever else was, and at its end the host is about to STEP
again. There is no limit on `n`: from every state of the invariant every amount of fuel is used up. And no program is
guaranteed to halt: some built block is RUNNING after every amount of it. -/
def Obligations.FuelCountsHostSteps : Prop :=
  (∀ (s : State) (n : Nat), BlockInv s →
    ∃ k t, runFuel n s = .next t ∧ runSteps k s = .next t ∧ countSteps k s = n ∧ t.nextCmd = some .step) ∧
  (∃ s : State, BlockInv s ∧ ∀ n t, runFuel n s = .next t → t.engState = .running)
end

