-- ==== Sys2Proof/Laws/State.lean ====
section
/-! SUPPORT. What each named update of the state does to each field: one lemma per field per update, true by rfl. -/

namespace Sys2Proof.Machine

open Sys2Proof

/-! ### raise -/

@[simp] theorem raise_hw (c : Cause) (i : Word) (s : State) : (raise c i s).hw = s.hw := rfl
@[simp] theorem raise_engState (c : Cause) (i : Word) (s : State) : (raise c i s).engState = .fault := rfl
@[simp] theorem raise_pc (c : Cause) (i : Word) (s : State) : (raise c i s).pc = s.pc := rfl
@[simp] theorem raise_mp (c : Cause) (i : Word) (s : State) : (raise c i s).mp = s.mp := rfl
@[simp] theorem raise_tapeLen (c : Cause) (i : Word) (s : State) : (raise c i s).tapeLen = s.tapeLen := rfl
@[simp] theorem raise_tape (c : Cause) (i : Word) (s : State) : (raise c i s).tape = s.tape := rfl
@[simp] theorem raise_prog (c : Cause) (i : Word) (s : State) : (raise c i s).prog = s.prog := rfl
@[simp] theorem raise_progValid (c : Cause) (i : Word) (s : State) : (raise c i s).progValid = s.progValid := rfl
@[simp] theorem raise_progLen (c : Cause) (i : Word) (s : State) : (raise c i s).progLen = s.progLen := rfl
@[simp] theorem raise_faultCause (c : Cause) (i : Word) (s : State) : (raise c i s).faultCause = c := rfl
@[simp] theorem raise_faultInfo (c : Cause) (i : Word) (s : State) : (raise c i s).faultInfo = i := rfl
@[simp] theorem raise_ioWait (c : Cause) (i : Word) (s : State) : (raise c i s).ioWait = s.ioWait := rfl
@[simp] theorem raise_stage (c : Cause) (i : Word) (s : State) : (raise c i s).stage = s.stage := rfl
@[simp] theorem raise_env (c : Cause) (i : Word) (s : State) : (raise c i s).env = s.env := rfl

/-! ### endStep -/

@[simp] theorem endStep_hw (s : State) : (endStep s).hw = s.hw := rfl
@[simp] theorem endStep_engState (s : State) : (endStep s).engState = builtState (incPc s.hw s.pc) s.progLen := rfl
@[simp] theorem endStep_pc (s : State) : (endStep s).pc = incPc s.hw s.pc := rfl
@[simp] theorem endStep_mp (s : State) : (endStep s).mp = s.mp := rfl
@[simp] theorem endStep_tapeLen (s : State) : (endStep s).tapeLen = s.tapeLen := rfl
@[simp] theorem endStep_tape (s : State) : (endStep s).tape = s.tape := rfl
@[simp] theorem endStep_prog (s : State) : (endStep s).prog = s.prog := rfl
@[simp] theorem endStep_progValid (s : State) : (endStep s).progValid = s.progValid := rfl
@[simp] theorem endStep_progLen (s : State) : (endStep s).progLen = s.progLen := rfl
@[simp] theorem endStep_faultCause (s : State) : (endStep s).faultCause = s.faultCause := rfl
@[simp] theorem endStep_faultInfo (s : State) : (endStep s).faultInfo = s.faultInfo := rfl
@[simp] theorem endStep_ioWait (s : State) : (endStep s).ioWait = s.ioWait := rfl
@[simp] theorem endStep_stage (s : State) : (endStep s).stage = s.stage := rfl
@[simp] theorem endStep_env (s : State) : (endStep s).env = s.env := rfl

/-! ### setCell -/

@[simp] theorem setCell_hw (v : Byte) (s : State) : (setCell v s).hw = s.hw := rfl
@[simp] theorem setCell_engState (v : Byte) (s : State) : (setCell v s).engState = s.engState := rfl
@[simp] theorem setCell_pc (v : Byte) (s : State) : (setCell v s).pc = s.pc := rfl
@[simp] theorem setCell_mp (v : Byte) (s : State) : (setCell v s).mp = s.mp := rfl
@[simp] theorem setCell_tapeLen (v : Byte) (s : State) : (setCell v s).tapeLen = s.tapeLen := rfl
@[simp] theorem setCell_tape (v : Byte) (s : State) : (setCell v s).tape = Memory.write s.tape s.mp v := rfl
@[simp] theorem setCell_prog (v : Byte) (s : State) : (setCell v s).prog = s.prog := rfl
@[simp] theorem setCell_progValid (v : Byte) (s : State) : (setCell v s).progValid = s.progValid := rfl
@[simp] theorem setCell_progLen (v : Byte) (s : State) : (setCell v s).progLen = s.progLen := rfl
@[simp] theorem setCell_faultCause (v : Byte) (s : State) : (setCell v s).faultCause = s.faultCause := rfl
@[simp] theorem setCell_faultInfo (v : Byte) (s : State) : (setCell v s).faultInfo = s.faultInfo := rfl
@[simp] theorem setCell_ioWait (v : Byte) (s : State) : (setCell v s).ioWait = s.ioWait := rfl
@[simp] theorem setCell_stage (v : Byte) (s : State) : (setCell v s).stage = s.stage := rfl
@[simp] theorem setCell_env (v : Byte) (s : State) : (setCell v s).env = s.env := rfl

/-! ### endInput -/

@[simp] theorem endInput_hw (r : InRsp) (s : State) : (endInput r s).hw = s.hw := rfl
@[simp] theorem endInput_engState (r : InRsp) (s : State) : (endInput r s).engState = s.engState := rfl
@[simp] theorem endInput_pc (r : InRsp) (s : State) : (endInput r s).pc = s.pc := rfl
@[simp] theorem endInput_mp (r : InRsp) (s : State) : (endInput r s).mp = s.mp := rfl
@[simp] theorem endInput_tapeLen (r : InRsp) (s : State) : (endInput r s).tapeLen = s.tapeLen := rfl
@[simp] theorem endInput_tape (r : InRsp) (s : State) : (endInput r s).tape = s.tape := rfl
@[simp] theorem endInput_prog (r : InRsp) (s : State) : (endInput r s).prog = s.prog := rfl
@[simp] theorem endInput_progValid (r : InRsp) (s : State) : (endInput r s).progValid = s.progValid := rfl
@[simp] theorem endInput_progLen (r : InRsp) (s : State) : (endInput r s).progLen = s.progLen := rfl
@[simp] theorem endInput_faultCause (r : InRsp) (s : State) : (endInput r s).faultCause = s.faultCause := rfl
@[simp] theorem endInput_faultInfo (r : InRsp) (s : State) : (endInput r s).faultInfo = s.faultInfo := rfl
@[simp] theorem endInput_ioWait (r : InRsp) (s : State) : (endInput r s).ioWait = .idle := rfl
@[simp] theorem endInput_stage (r : InRsp) (s : State) : (endInput r s).stage = s.stage := rfl
@[simp] theorem endInput_env (r : InRsp) (s : State) : (endInput r s).env = { s.env with consumed := s.env.consumed ++ [r] } := rfl

/-! ### endOutput -/

@[simp] theorem endOutput_hw (s : State) : (endOutput s).hw = s.hw := rfl
@[simp] theorem endOutput_engState (s : State) : (endOutput s).engState = s.engState := rfl
@[simp] theorem endOutput_pc (s : State) : (endOutput s).pc = s.pc := rfl
@[simp] theorem endOutput_mp (s : State) : (endOutput s).mp = s.mp := rfl
@[simp] theorem endOutput_tapeLen (s : State) : (endOutput s).tapeLen = s.tapeLen := rfl
@[simp] theorem endOutput_tape (s : State) : (endOutput s).tape = s.tape := rfl
@[simp] theorem endOutput_prog (s : State) : (endOutput s).prog = s.prog := rfl
@[simp] theorem endOutput_progValid (s : State) : (endOutput s).progValid = s.progValid := rfl
@[simp] theorem endOutput_progLen (s : State) : (endOutput s).progLen = s.progLen := rfl
@[simp] theorem endOutput_faultCause (s : State) : (endOutput s).faultCause = s.faultCause := rfl
@[simp] theorem endOutput_faultInfo (s : State) : (endOutput s).faultInfo = s.faultInfo := rfl
@[simp] theorem endOutput_ioWait (s : State) : (endOutput s).ioWait = .idle := rfl
@[simp] theorem endOutput_stage (s : State) : (endOutput s).stage = s.stage := rfl
@[simp] theorem endOutput_env (s : State) : (endOutput s).env = { s.env with emitted := s.env.emitted ++ [s.cell] } := rfl

/-! ### answer -/

@[simp] theorem answer_hw (r : Resp) (s : State) : (answer r s).hw = s.hw := rfl
@[simp] theorem answer_engState (r : Resp) (s : State) : (answer r s).engState = s.engState := rfl
@[simp] theorem answer_pc (r : Resp) (s : State) : (answer r s).pc = s.pc := rfl
@[simp] theorem answer_mp (r : Resp) (s : State) : (answer r s).mp = s.mp := rfl
@[simp] theorem answer_tapeLen (r : Resp) (s : State) : (answer r s).tapeLen = s.tapeLen := rfl
@[simp] theorem answer_tape (r : Resp) (s : State) : (answer r s).tape = s.tape := rfl
@[simp] theorem answer_prog (r : Resp) (s : State) : (answer r s).prog = s.prog := rfl
@[simp] theorem answer_progValid (r : Resp) (s : State) : (answer r s).progValid = s.progValid := rfl
@[simp] theorem answer_progLen (r : Resp) (s : State) : (answer r s).progLen = s.progLen := rfl
@[simp] theorem answer_faultCause (r : Resp) (s : State) : (answer r s).faultCause = s.faultCause := rfl
@[simp] theorem answer_faultInfo (r : Resp) (s : State) : (answer r s).faultInfo = s.faultInfo := rfl
@[simp] theorem answer_ioWait (r : Resp) (s : State) : (answer r s).ioWait = s.ioWait := rfl
@[simp] theorem answer_stage (r : Resp) (s : State) : (answer r s).stage = s.stage := rfl
@[simp] theorem answer_env (r : Resp) (s : State) : (answer r s).env = { s.env with resp := some r } := rfl

/-! ### answerStep -/

@[simp] theorem answerStep_hw (s : State) : (answerStep s).hw = s.hw := rfl
@[simp] theorem answerStep_engState (s : State) : (answerStep s).engState = s.engState := rfl
@[simp] theorem answerStep_pc (s : State) : (answerStep s).pc = s.pc := rfl
@[simp] theorem answerStep_mp (s : State) : (answerStep s).mp = s.mp := rfl
@[simp] theorem answerStep_tapeLen (s : State) : (answerStep s).tapeLen = s.tapeLen := rfl
@[simp] theorem answerStep_tape (s : State) : (answerStep s).tape = s.tape := rfl
@[simp] theorem answerStep_prog (s : State) : (answerStep s).prog = s.prog := rfl
@[simp] theorem answerStep_progValid (s : State) : (answerStep s).progValid = s.progValid := rfl
@[simp] theorem answerStep_progLen (s : State) : (answerStep s).progLen = s.progLen := rfl
@[simp] theorem answerStep_faultCause (s : State) : (answerStep s).faultCause = s.faultCause := rfl
@[simp] theorem answerStep_faultInfo (s : State) : (answerStep s).faultInfo = s.faultInfo := rfl
@[simp] theorem answerStep_ioWait (s : State) : (answerStep s).ioWait = s.ioWait := rfl
@[simp] theorem answerStep_stage (s : State) : (answerStep s).stage = s.stage := rfl
@[simp] theorem answerStep_env (s : State) : (answerStep s).env = { s.env with resp := stepResp s } := rfl

/-! ### resetOf -/

@[simp] theorem resetOf_hw (hw : Params) (env : Env) : (State.resetOf hw env).hw = hw := rfl
@[simp] theorem resetOf_engState (hw : Params) (env : Env) : (State.resetOf hw env).engState = .unbuilt := rfl
@[simp] theorem resetOf_pc (hw : Params) (env : Env) : (State.resetOf hw env).pc = 0 := rfl
@[simp] theorem resetOf_mp (hw : Params) (env : Env) : (State.resetOf hw env).mp = 0 := rfl
@[simp] theorem resetOf_tapeLen (hw : Params) (env : Env) : (State.resetOf hw env).tapeLen = 0 := rfl
@[simp] theorem resetOf_tape (hw : Params) (env : Env) : (State.resetOf hw env).tape = [] := rfl
@[simp] theorem resetOf_prog (hw : Params) (env : Env) : (State.resetOf hw env).prog = [] := rfl
@[simp] theorem resetOf_progValid (hw : Params) (env : Env) : (State.resetOf hw env).progValid = false := rfl
@[simp] theorem resetOf_progLen (hw : Params) (env : Env) : (State.resetOf hw env).progLen = 0 := rfl
@[simp] theorem resetOf_faultCause (hw : Params) (env : Env) : (State.resetOf hw env).faultCause = .none := rfl
@[simp] theorem resetOf_faultInfo (hw : Params) (env : Env) : (State.resetOf hw env).faultInfo = 0#32 := rfl
@[simp] theorem resetOf_ioWait (hw : Params) (env : Env) : (State.resetOf hw env).ioWait = .idle := rfl
@[simp] theorem resetOf_stage (hw : Params) (env : Env) : (State.resetOf hw env).stage = Stage.empty := rfl
@[simp] theorem resetOf_env (hw : Params) (env : Env) : (State.resetOf hw env).env = env := rfl

end Sys2Proof.Machine
end

