-- ==== Sys2Proof/Laws/Store.lean ====
section
/-! SUPPORT. The laws of a space: a read after a write, and that writing keeps the canonical form. -/

namespace Sys2Proof.Machine

open Sys2Proof

variable {w : Nat}

/-- A write is read back at its own index. -/
@[simp] theorem Store.read_write_self (m : Store w) (a : Nat) (v : BitVec w) (h : Store.wf m = true) :
    Store.read (Store.write m a v) a = v := by
  have key : ∀ (m : Store w) (lo : Nat), Store.wfFrom lo m = true → Store.read (Store.write m a v) a = v := by
    intro m
    induction m with
    | nil => intro lo _; by_cases hv : v = 0#w <;> simp [Store.write, Store.read, hv]
    | cons c t ih =>
      obtain ⟨b, x⟩ := c
      intro lo hwf
      simp only [Store.wfFrom, Bool.and_eq_true, decide_eq_true_eq] at hwf
      have above : ∀ (t : Store w) (lo : Nat), Store.wfFrom lo t = true → a < lo → Store.read t a = 0#w := by
        intro t
        induction t with
        | nil => intros; rfl
        | cons c t ih =>
          obtain ⟨b, x⟩ := c
          intro lo hwf hlt
          simp only [Store.wfFrom, Bool.and_eq_true, decide_eq_true_eq] at hwf
          rw [Store.read, if_neg (by omega)]
          exact ih (b + 1) hwf.2 (by omega)
      by_cases h1 : a < b
      · by_cases hv : v = 0#w
        · rw [Store.write, if_pos h1, if_pos hv, hv]
          rw [Store.read, if_neg (by omega)]
          exact above t (b + 1) hwf.2 (by omega)
        · simp [Store.write, Store.read, h1, hv]
      · by_cases h2 : a = b
        · by_cases hv : v = 0#w
          · rw [Store.write, if_neg h1, if_pos h2, if_pos hv, hv]
            exact above t (b + 1) hwf.2 (by omega)
          · simp [Store.write, Store.read, h2, hv]
        · rw [Store.write, if_neg h1, if_neg h2, Store.read, if_neg h2]
          exact ih (b + 1) hwf.2
  exact key m 0 h

/-- A write leaves every other index alone. -/
theorem Store.read_write_of_ne (m : Store w) {a a' : Nat} (v : BitVec w) (h : a' ≠ a) :
    Store.read (Store.write m a v) a' = Store.read m a' := by
  induction m with
  | nil => by_cases hv : v = 0#w <;> simp [Store.write, Store.read, hv, h]
  | cons c t ih =>
    obtain ⟨b, x⟩ := c
    by_cases h1 : a < b
    · by_cases hv : v = 0#w <;> simp [Store.write, Store.read, h1, hv, h]
    · by_cases h2 : a = b
      · subst h2
        by_cases hv : v = 0#w <;> simp [Store.write, Store.read, hv, h]
      · by_cases h3 : a' = b <;> simp [Store.write, Store.read, h1, h2, h3, ih]

/-- Writing from `lo` on keeps the canonical form from `lo` on. -/
theorem Store.wfFrom_write (m : Store w) (lo a : Nat) (v : BitVec w) (h : Store.wfFrom lo m = true) (ha : lo ≤ a) :
    Store.wfFrom lo (Store.write m a v) = true := by
  induction m generalizing lo with
  | nil => by_cases hv : v = 0#w <;> simp [Store.write, Store.wfFrom, hv, ha]
  | cons c t ih =>
    obtain ⟨b, x⟩ := c
    simp only [Store.wfFrom, Bool.and_eq_true, decide_eq_true_eq] at h
    obtain ⟨⟨hb, hx⟩, ht⟩ := h
    have weaken : ∀ (t : Store w) (lo lo' : Nat), lo ≤ lo' → Store.wfFrom lo' t = true → Store.wfFrom lo t = true := by
      intro t lo lo' hle
      cases t with
      | nil => intro _; rfl
      | cons c t =>
        obtain ⟨b, x⟩ := c
        simp only [Store.wfFrom, Bool.and_eq_true, decide_eq_true_eq]
        rintro ⟨⟨h1, h2⟩, h3⟩
        exact ⟨⟨by omega, h2⟩, h3⟩
    by_cases h1 : a < b
    · by_cases hv : v = 0#w
      · simp [Store.write, Store.wfFrom, h1, hv, hb, hx, ht]
      · simp [Store.write, Store.wfFrom, h1, hv, ha, hx, ht]
    · by_cases h2 : a = b
      · subst h2
        by_cases hv : v = 0#w
        · simp only [Store.write, h1, hv, if_true, if_false]
          exact weaken t lo (a + 1) (by omega) ht
        · simp [Store.write, Store.wfFrom, hv, ha, ht]
      · simp only [Store.write, h1, h2, if_false, Store.wfFrom, Bool.and_eq_true, decide_eq_true_eq]
        exact ⟨⟨hb, hx⟩, ih (b + 1) ht (by omega)⟩

/-- Writing keeps the canonical form. -/
theorem Store.wf_write (m : Store w) (a : Nat) (v : BitVec w) (h : Store.wf m = true) :
    Store.wf (Store.write m a v) = true := Store.wfFrom_write m 0 a v h (by omega)

/-- A write lists nothing but its own index beside what was listed. -/
theorem Store.mem_write {m : Store w} {a : Nat} {v : BitVec w} {c : Nat × BitVec w} (h : c ∈ Store.write m a v) :
    c = (a, v) ∨ c ∈ m := by
  induction m with
  | nil => by_cases hv : v = 0#w <;> simp_all [Store.write]
  | cons d t ih =>
    obtain ⟨b, x⟩ := d
    simp only [Store.write] at h
    split at h
    · split at h <;> simp_all
    · split at h
      · split at h
        · exact .inr (List.mem_cons_of_mem _ h)
        · rcases List.mem_cons.1 h with h | h
          · exact .inl h
          · exact .inr (List.mem_cons_of_mem _ h)
      · simp only [List.mem_cons] at h ⊢
        rcases h with h | h
        · exact .inr (.inl h)
        · rcases ih h with h | h <;> simp [h]

/-- Filling keeps the canonical form. -/
theorem Store.wf_fill (v : BitVec w) (n : Nat) (m : Store w) (h : Store.wf m = true) :
    Store.wf (Store.fill v n m) = true := by
  induction n with
  | zero => exact h
  | succ n ih => exact Store.wf_write _ _ _ ih

/-- Filling below `n` is read back below `n` and leaves the rest alone. -/
theorem Store.read_fill (v : BitVec w) (n : Nat) (m : Store w) (h : Store.wf m = true) (a : Nat) :
    Store.read (Store.fill v n m) a = if a < n then v else Store.read m a := by
  induction n with
  | zero => simp [Store.fill]
  | succ n ih =>
    by_cases ha : a = n
    · subst ha
      simp [Store.fill, Store.read_write_self _ _ _ (Store.wf_fill v a m h)]
    · rw [Store.fill, Store.read_write_of_ne _ _ ha, ih]
      by_cases h1 : a < n
      · simp [h1, Nat.lt_succ_of_lt h1]
      · simp [h1, show ¬ a < n + 1 by omega]

/-- Two canonical spaces that read alike are one list: equal contents are equal data. -/
theorem Store.eq_of_read_eq (m m' : Store w) (h : Store.wf m = true) (h' : Store.wf m' = true)
    (hr : ∀ a, Store.read m a = Store.read m' a) : m = m' := by
  have below : ∀ (m : Store w) (lo a : Nat), Store.wfFrom lo m = true → a < lo → Store.read m a = 0#w := by
    intro m
    induction m with
    | nil => intros; rfl
    | cons c t ih =>
      obtain ⟨b, x⟩ := c
      intro lo a hwf hlt
      simp only [Store.wfFrom, Bool.and_eq_true, decide_eq_true_eq] at hwf
      rw [Store.read, if_neg (by omega)]
      exact ih (b + 1) a hwf.2 (by omega)
  have key : ∀ (m m' : Store w) (lo lo' : Nat), Store.wfFrom lo m = true → Store.wfFrom lo' m' = true →
      (∀ a, Store.read m a = Store.read m' a) → m = m' := by
    intro m
    induction m with
    | nil =>
      intro m' lo lo' _ h' hr
      cases m' with
      | nil => rfl
      | cons c t =>
        obtain ⟨b, x⟩ := c
        simp only [Store.wfFrom, Bool.and_eq_true, decide_eq_true_eq] at h'
        have := hr b
        simp [Store.read] at this
        exact absurd this.symm h'.1.2
    | cons c t ih =>
      obtain ⟨b, x⟩ := c
      intro m' lo lo' h h' hr
      simp only [Store.wfFrom, Bool.and_eq_true, decide_eq_true_eq] at h
      cases m' with
      | nil =>
        have := hr b
        simp [Store.read] at this
        exact absurd this h.1.2
      | cons c' t' =>
        obtain ⟨b', x'⟩ := c'
        simp only [Store.wfFrom, Bool.and_eq_true, decide_eq_true_eq] at h'
        have hbb : b = b' := by
          rcases Nat.lt_trichotomy b b' with hlt | heq | hgt
          · have := hr b
            rw [Store.read, if_pos rfl, Store.read, if_neg (by omega), below t' (b' + 1) b h'.2 (by omega)] at this
            exact absurd this h.1.2
          · exact heq
          · have := hr b'
            rw [Store.read, if_neg (by omega), below t (b + 1) b' h.2 (by omega), Store.read, if_pos rfl] at this
            exact absurd this.symm h'.1.2
        subst hbb
        have hx : x = x' := by simpa [Store.read] using hr b
        subst hx
        congr 1
        refine ih t' (b + 1) (b + 1) h.2 h'.2 fun a => ?_
        by_cases ha : a = b
        · subst ha
          rw [below t (a + 1) a h.2 (by omega), below t' (a + 1) a h'.2 (by omega)]
        · have := hr a
          simpa [Store.read, ha] using this
  exact key m m' 0 0 h h' hr

/-! ### The tape's contents -/

@[simp] theorem Memory.read_write_self (m : Memory) (a : Nat) (v : Byte) (h : Memory.wf m = true) :
    Memory.read (Memory.write m a v) a = v := Store.read_write_self m a v h

theorem Memory.read_write_of_ne (m : Memory) {a a' : Nat} (v : Byte) (h : a' ≠ a) :
    Memory.read (Memory.write m a v) a' = Memory.read m a' := Store.read_write_of_ne m v h

theorem Memory.wf_write (m : Memory) (a : Nat) (v : Byte) (h : Memory.wf m = true) :
    Memory.wf (Memory.write m a v) = true := Store.wf_write m a v h

end Sys2Proof.Machine
end

