-- ==== Sys2Proof/Laws/Step.lean ====
section
/-! SUPPORT. What each shared operation and one step can do: the inversion lemmas that the proofs cite instead of unfolding. -/

namespace Sys2Proof.Machine

open Sys2Proof

/-! ### Outcomes -/

@[simp] theorem andThen_next (s : State) (f : State → Host.Outcome State Fault Refusal) :
    andThen (.next s) f = f s := rfl
@[simp] theorem andThen_fault (r : Fault) (f : State → Host.Outcome State Fault Refusal) :
    andThen (.fault r) f = .fault r := rfl
@[simp] theorem andThen_refused (r : Refusal) (f : State → Host.Outcome State Fault Refusal) :
    andThen (.refused r) f = .refused r := rfl

/-- A chain that answers a next state went through one. -/
theorem andThen_eq_next {o : Host.Outcome State Fault Refusal} {f : State → Host.Outcome State Fault Refusal} {t : State}
    (h : andThen o f = .next t) : ∃ u, o = .next u ∧ f u = .next t := by
  cases o with
  | next u => exact ⟨u, rfl, h⟩
  | fault r => exact absurd h (by simp)
  | refused r => exact absurd h (by simp)

/-- `runSteps` is the host's run of this machine. -/
theorem runSteps_eq_coreRun (n : Nat) (s : State) : runSteps n s = Host.Core.run Sys2Proof.core n s := by
  induction n generalizing s with
  | zero => rfl
  | succ n ih =>
    have hstep : ∀ o : Host.Outcome State Fault Refusal, core.step s = o → step s = o := fun _ h => h
    simp only [Host.Core.run, runSteps]
    cases h : core.step s with
    | next u => rw [hstep _ h]; exact ih u
    | fault r => rw [hstep _ h]; rfl
    | refused r => rw [hstep _ h]; rfl

/-- A run of `n + 1` steps is a step and a run of `n`. -/
@[simp] theorem runSteps_succ (n : Nat) (s : State) : runSteps (n + 1) s = andThen (step s) (runSteps n) := rfl
@[simp] theorem runSteps_zero (s : State) : runSteps 0 s = .next s := rfl

/-! ### The current cell -/

theorem withCell_onTape {s : State} (h : s.mp < s.tapeLen) (f : Byte → Host.Outcome State Fault Refusal) :
    withCell s f = f s.cell := by simp [withCell, h]

theorem withCell_offTape {s : State} (h : s.tapeLen ≤ s.mp) (f : Byte → Host.Outcome State Fault Refusal) :
    withCell s f = .fault (.tapeOutOfRange s.mp) := by simp [withCell, Nat.not_lt.2 h]

/-- An access that answers a next state found the cell. -/
theorem withCell_eq_next {s t : State} {f : Byte → Host.Outcome State Fault Refusal} (h : withCell s f = .next t) :
    s.mp < s.tapeLen ∧ f s.cell = .next t := by
  by_cases hm : s.mp < s.tapeLen
  · exact ⟨hm, by simpa [withCell, hm] using h⟩
  · simp [withCell, hm] at h

/-! ### The instructions: everything each can do -/

theorem execIncrementValue_cases {s t : State} (h : execIncrementValue s = .next t) :
    s.mp < s.tapeLen ∧ t = endStep (setCell (s.cell + 1#8) s) := by
  obtain ⟨hm, h⟩ := withCell_eq_next h
  exact ⟨hm, by simpa using h.symm⟩

theorem execDecrementValue_cases {s t : State} (h : execDecrementValue s = .next t) :
    s.mp < s.tapeLen ∧ t = endStep (setCell (s.cell + 255#8) s) := by
  obtain ⟨hm, h⟩ := withCell_eq_next h
  exact ⟨hm, by simpa using h.symm⟩

theorem completeInput_cases {r : InRsp} {s t : State} (h : completeInput r s = .next t) :
    s.mp < s.tapeLen ∧
      ((∃ b, acceptedByte s.hw r = some b ∧ t = endStep (setCell b (endInput r s))) ∨
        (acceptedByte s.hw r = none ∧ t = endStep (endInput r s))) := by
  obtain ⟨hm, h⟩ := withCell_eq_next h
  refine ⟨hm, ?_⟩
  cases hb : acceptedByte s.hw r with
  | some b => exact .inl ⟨b, rfl, by simpa [hb] using h.symm⟩
  | none => exact .inr ⟨rfl, by simpa [hb] using h.symm⟩

theorem completeOutput_cases {r : OutRsp} {s t : State} (h : completeOutput r s = .next t) :
    s.mp < s.tapeLen ∧ t = endStep (endOutput s) := by
  obtain ⟨hm, h⟩ := withCell_eq_next h
  exact ⟨hm, by simpa using h.symm⟩

/-! What an environment answers when asked, by its queue. -/

theorem takeInput_nil {s : State} (h : s.env.inputs = []) : takeInput s = (none, s) := by simp [takeInput, h]
theorem takeInput_cons {s : State} {a : Option InRsp} {q : List (Option InRsp)} (h : s.env.inputs = a :: q) :
    takeInput s = (a, { s with env := { s.env with inputs := q } }) := by simp [takeInput, h]
theorem takeOutput_nil {s : State} (h : s.env.outputs = []) : takeOutput s = (none, s) := by simp [takeOutput, h]
theorem takeOutput_cons {s : State} {a : Option OutRsp} {q : List (Option OutRsp)} (h : s.env.outputs = a :: q) :
    takeOutput s = (a, { s with env := { s.env with outputs := q } }) := by simp [takeOutput, h]

/-- InputValue: either it completes with the answer at the head of the queue, or it waits. -/
theorem execInputValue_cases {s t : State} (h : execInputValue s = .next t) :
    ∃ q, (∃ r, s.env.inputs = some r :: q ∧ completeInput r { s with env := { s.env with inputs := q } } = .next t) ∨
      t = { s with ioWait := .input, env := { s.env with inputs := q } } := by
  rcases hq : s.env.inputs with _ | ⟨_ | r, q⟩
  · refine ⟨[], .inr ?_⟩
    simp only [execInputValue, takeInput_nil hq, Host.Outcome.next.injEq] at h
    rw [← h, ← hq]
  · refine ⟨q, .inr ?_⟩
    simpa only [execInputValue, takeInput_cons hq, Host.Outcome.next.injEq] using h.symm
  · exact ⟨q, .inl ⟨r, rfl, by simpa only [execInputValue, takeInput_cons hq] using h⟩⟩

/-- OutputValue: either it completes with the answer at the head of the queue, or it waits. -/
theorem execOutputValue_cases {s t : State} (h : execOutputValue s = .next t) :
    ∃ q, (∃ r, s.env.outputs = some r :: q ∧ completeOutput r { s with env := { s.env with outputs := q } } = .next t) ∨
      t = { s with ioWait := .output, env := { s.env with outputs := q } } := by
  rcases hq : s.env.outputs with _ | ⟨_ | r, q⟩
  · refine ⟨[], .inr ?_⟩
    simp only [execOutputValue, takeOutput_nil hq, Host.Outcome.next.injEq] at h
    rw [← h, ← hq]
  · refine ⟨q, .inr ?_⟩
    simpa only [execOutputValue, takeOutput_cons hq, Host.Outcome.next.injEq] using h.symm
  · exact ⟨q, .inl ⟨r, rfl, by simpa only [execOutputValue, takeOutput_cons hq] using h⟩⟩

theorem execJumpForward_cases {s t : State} (h : execJumpForward s = .next t) :
    s.mp < s.tapeLen ∧
      ((s.cell ≠ 0#8 ∧ t = endStep s) ∨
        (s.cell = 0#8 ∧ ∃ j, matchFwd s.progRead s.progLen s.pc = some j ∧ t = endStep { s with pc := j }) ∨
        (s.cell = 0#8 ∧ matchFwd s.progRead s.progLen s.pc = none ∧ t = raise .runUnmatchedJF (zext32 s.pc) s)) := by
  obtain ⟨hm, h⟩ := withCell_eq_next h
  refine ⟨hm, ?_⟩
  by_cases hz : s.cell = 0#8
  · cases hj : matchFwd s.progRead s.progLen s.pc with
    | some j => exact .inr (.inl ⟨hz, j, rfl, by simpa [isZero, hz, jumpTo, State.matchFwd, hj] using h.symm⟩)
    | none => exact .inr (.inr ⟨hz, rfl, by simpa [isZero, hz, jumpTo, State.matchFwd, hj] using h.symm⟩)
  · exact .inl ⟨hz, by simpa [isZero, hz] using h.symm⟩

theorem execJumpBackward_cases {s t : State} (h : execJumpBackward s = .next t) :
    s.mp < s.tapeLen ∧
      ((s.cell = 0#8 ∧ t = endStep s) ∨
        (s.cell ≠ 0#8 ∧ ∃ k, matchBwd s.progRead s.progLen s.pc = some k ∧ t = endStep { s with pc := k }) ∨
        (s.cell ≠ 0#8 ∧ matchBwd s.progRead s.progLen s.pc = none ∧ t = raise .runUnmatchedJB (zext32 s.pc) s)) := by
  obtain ⟨hm, h⟩ := withCell_eq_next h
  refine ⟨hm, ?_⟩
  by_cases hz : s.cell = 0#8
  · exact .inl ⟨hz, by simpa [isZero, hz] using h.symm⟩
  · cases hj : matchBwd s.progRead s.progLen s.pc with
    | some k => exact .inr (.inl ⟨hz, k, rfl, by simpa [isZero, hz, jumpTo, State.matchBwd, hj] using h.symm⟩)
    | none => exact .inr (.inr ⟨hz, rfl, by simpa [isZero, hz, jumpTo, State.matchBwd, hj] using h.symm⟩)

/-! ### What every instruction keeps -/

/-- No instruction writes the instance, the tape's length, the program or the staging registers. -/
theorem exec_keepsProgram {i : Instr} {s t : State} (h : exec i s = .next t) :
    t.hw = s.hw ∧ t.tapeLen = s.tapeLen ∧ t.prog = s.prog ∧ t.progLen = s.progLen ∧ t.progValid = s.progValid ∧
      t.stage = s.stage := by
  cases i <;> simp only [exec] at h
  · simp only [execIncrementPointer, Host.Outcome.next.injEq] at h; subst h; exact ⟨rfl, rfl, rfl, rfl, rfl, rfl⟩
  · simp only [execDecrementPointer, Host.Outcome.next.injEq] at h; subst h; exact ⟨rfl, rfl, rfl, rfl, rfl, rfl⟩
  · obtain ⟨_, rfl⟩ := execIncrementValue_cases h; exact ⟨rfl, rfl, rfl, rfl, rfl, rfl⟩
  · obtain ⟨_, rfl⟩ := execDecrementValue_cases h; exact ⟨rfl, rfl, rfl, rfl, rfl, rfl⟩
  · obtain ⟨q, ⟨r, _, hc⟩ | rfl⟩ := execOutputValue_cases h
    · obtain ⟨_, rfl⟩ := completeOutput_cases hc; exact ⟨rfl, rfl, rfl, rfl, rfl, rfl⟩
    · exact ⟨rfl, rfl, rfl, rfl, rfl, rfl⟩
  · obtain ⟨q, ⟨r, _, hc⟩ | rfl⟩ := execInputValue_cases h
    · obtain ⟨_, ⟨b, _, rfl⟩ | ⟨_, rfl⟩⟩ := completeInput_cases hc <;> exact ⟨rfl, rfl, rfl, rfl, rfl, rfl⟩
    · exact ⟨rfl, rfl, rfl, rfl, rfl, rfl⟩
  · obtain ⟨_, ⟨_, rfl⟩ | ⟨_, j, _, rfl⟩ | ⟨_, _, rfl⟩⟩ := execJumpForward_cases h <;>
      exact ⟨rfl, rfl, rfl, rfl, rfl, rfl⟩
  · obtain ⟨_, ⟨_, rfl⟩ | ⟨_, k, _, rfl⟩ | ⟨_, _, rfl⟩⟩ := execJumpBackward_cases h <;>
      exact ⟨rfl, rfl, rfl, rfl, rfl, rfl⟩
  · simp only [execNoOp, Host.Outcome.next.injEq] at h; subst h; exact ⟨rfl, rfl, rfl, rfl, rfl, rfl⟩

/-! ### Moves -/

/-- Two states that differ in the agents' queues alone. -/
def SameBlock (s s0 : State) : Prop :=
  s0 = { s with env := { s.env with cmds := s0.env.cmds, inputs := s0.env.inputs, outputs := s0.env.outputs } }

theorem takeCmd_cases (s : State) : ∃ c, (takeCmd s).1 = .cmd c ∧ SameBlock s (takeCmd s).2 := by
  unfold takeCmd
  cases s.env.cmds with
  | nil => exact ⟨.step, rfl, rfl⟩
  | cons c rest => exact ⟨c, rfl, rfl⟩

/-- Who moves: a host command, or the answer that a waiting step waits for; only the agents' queues have moved on. -/
theorem nextMove_cases (s : State) :
    SameBlock s (nextMove s).2 ∧
      ((∃ c, (nextMove s).1 = .cmd c) ∨ (s.ioWait = .input ∧ ∃ r, (nextMove s).1 = .inputAnswer r) ∨
        (s.ioWait = .output ∧ ∃ r, (nextMove s).1 = .outputAnswer r)) := by
  unfold nextMove
  cases hw : s.ioWait with
  | idle => obtain ⟨c, hc, hs⟩ := takeCmd_cases s; exact ⟨hs, .inl ⟨c, hc⟩⟩
  | input =>
    rcases hq : s.env.inputs with _ | ⟨_ | r, q⟩
    · rw [takeInput_nil hq]; obtain ⟨c, hc, hs⟩ := takeCmd_cases s; exact ⟨hs, .inl ⟨c, hc⟩⟩
    · rw [takeInput_cons hq]
      obtain ⟨c, hc, hs⟩ := takeCmd_cases { s with env := { s.env with inputs := q } }
      exact ⟨hs, .inl ⟨c, hc⟩⟩
    · rw [takeInput_cons hq]; exact ⟨rfl, .inr (.inl ⟨rfl, r, rfl⟩)⟩
  | output =>
    rcases hq : s.env.outputs with _ | ⟨_ | r, q⟩
    · rw [takeOutput_nil hq]; obtain ⟨c, hc, hs⟩ := takeCmd_cases s; exact ⟨hs, .inl ⟨c, hc⟩⟩
    · rw [takeOutput_cons hq]
      obtain ⟨c, hc, hs⟩ := takeCmd_cases { s with env := { s.env with outputs := q } }
      exact ⟨hs, .inl ⟨c, hc⟩⟩
    · rw [takeOutput_cons hq]; exact ⟨rfl, .inr (.inr ⟨rfl, r, rfl⟩)⟩

/-- A step that handles a host command is that command. -/
theorem step_of_cmd {s s0 : State} {c : Cmd} (h : nextMove s = (.cmd c, s0)) : step s = doCmd c s0 := by
  simp [step, transition, h, doMove]

/-- STEP that answers a next state: refused, or the decoded instruction executed. -/
theorem doStep_cases {s t : State} (h : doStep s = .next t) :
    (stepAccepted s = false ∧ t = answer .refused s) ∨
      (stepAccepted s = true ∧ ∃ i u, decodeCode (fetchCode s) = .ok i ∧ exec i s = .next u ∧ t = answerStep u) := by
  unfold doStep at h
  split at h
  · next hacc =>
    refine .inr ⟨hacc, ?_⟩
    split at h
    · next i hi =>
      obtain ⟨u, hu, h⟩ := andThen_eq_next h
      exact ⟨i, u, hi, hu, by simpa using h.symm⟩
    · cases h
  · next hacc => exact .inl ⟨by simpa using hacc, by simpa using h.symm⟩

/-- A step that answers a next state: a host command, or the completion of the step that waits. -/
theorem step_cases {s t : State} (h : step s = .next t) :
    ∃ s0, SameBlock s s0 ∧
      ((∃ c, nextMove s = (.cmd c, s0) ∧ doCmd c s0 = .next t) ∨
        (∃ r u, nextMove s = (.inputAnswer r, s0) ∧ s.ioWait = .input ∧ completeInput r s0 = .next u ∧ t = answerStep u) ∨
        (∃ r u, nextMove s = (.outputAnswer r, s0) ∧ s.ioWait = .output ∧ completeOutput r s0 = .next u ∧
          t = answerStep u)) := by
  obtain ⟨hs, hm⟩ := nextMove_cases s
  rcases hmv : nextMove s with ⟨m, s0⟩
  rw [hmv] at hs hm
  refine ⟨s0, hs, ?_⟩
  simp only [step, transition, hmv] at h
  rcases hm with ⟨c, hc⟩ | ⟨hw, r, hc⟩ | ⟨hw, r, hc⟩ <;> simp only at hc <;> subst hc
  · exact .inl ⟨c, rfl, h⟩
  · obtain ⟨u, hu, h⟩ := andThen_eq_next h
    exact .inr (.inl ⟨r, u, rfl, hw, hu, by simpa using h.symm⟩)
  · obtain ⟨u, hu, h⟩ := andThen_eq_next h
    exact .inr (.inr ⟨r, u, rfl, hw, hu, by simpa using h.symm⟩)

end Sys2Proof.Machine
end

