-- ==== Sys2Proof/Laws/Fuel.lean ====
section
/-! SUPPORT. Runs under fuel (R16): how runs compose, that a transition which is no host STEP takes a datum the agents have
queued, and everything `untilStep` can do. -/

namespace Sys2Proof.Machine

open Sys2Proof

theorem runSteps_add (a b : Nat) (s : State) : runSteps (a + b) s = andThen (runSteps a s) (runSteps b) := by
  induction a generalizing s with
  | zero => simp
  | succ a ih =>
    rw [Nat.succ_add, runSteps_succ, runSteps_succ]
    cases step s with
    | next u => exact ih u
    | fault r => rfl
    | refused r => rfl

theorem countSteps_succ {s t : State} (h : step s = .next t) (k : Nat) :
    countSteps (k + 1) s = (if s.nextCmd = some .step then 1 else 0) + countSteps k t := by
  simp [countSteps, h]

theorem countSteps_add {a : Nat} {s t : State} (h : runSteps a s = .next t) (b : Nat) :
    countSteps (a + b) s = countSteps a s + countSteps b t := by
  induction a generalizing s with
  | zero => simp at h; subst h; simp [countSteps]
  | succ a ih =>
    obtain ⟨u, hu, hr⟩ := andThen_eq_next (by simpa using h)
    rw [Nat.succ_add, countSteps_succ hu, countSteps_succ hu, ih hr, Nat.add_assoc]

/-- A host command other than STEP leaves the agents' queues as they are. -/
theorem doCmd_pending {c : Cmd} {s t : State} (hc : c ≠ .step) (h : doCmd c s = .next t) : t.env.pending = s.env.pending := by
  have ha : (abortIo s).env.pending = s.env.pending := by unfold abortIo; split <;> rfl
  cases c <;> simp only [doCmd, Host.Outcome.next.injEq] at h
  · subst h; exact ha
  · subst h; exact ha
  · subst h; unfold doPushChar; repeat' split
    all_goals rfl
  · subst h; unfold doPushInstr noteBadop; repeat' split
    all_goals rfl
  · subst h; unfold doBuildCommit; repeat' split
    all_goals rfl
  · exact absurd rfl hc
  · subst h; unfold doReadCsr; split <;> rfl
  · subst h; unfold doReadTape; split <;> rfl
  · subst h; unfold doReadProg readProgAt; repeat' split
    all_goals rfl

theorem takeCmd_pending {s : State} (h : (takeCmd s).1 ≠ .cmd .step) : (takeCmd s).2.env.pending < s.env.pending := by
  unfold takeCmd at h ⊢
  cases hq : s.env.cmds with
  | nil => simp [hq] at h
  | cons c rest => simp only [Env.pending, hq, List.length_cons]; omega

/-- A move that is no STEP takes a datum from a queue. -/
theorem nextMove_pending {s : State} (h : (nextMove s).1 ≠ .cmd .step) : (nextMove s).2.env.pending < s.env.pending := by
  unfold nextMove at h ⊢
  cases hw : s.ioWait with
  | idle => simp only [hw] at h; exact takeCmd_pending h
  | input =>
    simp only [hw] at h
    rcases hq : s.env.inputs with _ | ⟨_ | r, q⟩
    · rw [takeInput_nil hq] at h ⊢; exact takeCmd_pending h
    · rw [takeInput_cons hq] at h ⊢
      refine Nat.lt_trans (takeCmd_pending h) ?_
      simp only [Env.pending, hq, List.length_cons]; omega
    · rw [takeInput_cons hq]; simp only [Env.pending, hq, List.length_cons]; omega
  | output =>
    simp only [hw] at h
    rcases hq : s.env.outputs with _ | ⟨_ | r, q⟩
    · rw [takeOutput_nil hq] at h ⊢; exact takeCmd_pending h
    · rw [takeOutput_cons hq] at h ⊢
      refine Nat.lt_trans (takeCmd_pending h) ?_
      simp only [Env.pending, hq, List.length_cons]; omega
    · rw [takeOutput_cons hq]; simp only [Env.pending, hq, List.length_cons]; omega

/-- A transition that is no host STEP takes a datum from a queue and puts none back. -/
theorem step_pending {s t : State} (hc : s.nextCmd ≠ some .step) (h : step s = .next t) :
    t.env.pending < s.env.pending := by
  have hm : (nextMove s).1 ≠ .cmd .step := by
    intro hm; exact hc (by simp [State.nextCmd, hm])
  have hlt := nextMove_pending hm
  obtain ⟨s0, _, ⟨c, hn, hd⟩ | ⟨r, u, hn, _, hd, rfl⟩ | ⟨r, u, hn, _, hd, rfl⟩⟩ := step_cases h <;>
    rw [hn] at hm hlt
  · rw [doCmd_pending (fun he => hm (by rw [he])) hd]; exact hlt
  · obtain ⟨_, ⟨b, _, rfl⟩ | ⟨_, rfl⟩⟩ := completeInput_cases hd <;> exact hlt
  · obtain ⟨_, rfl⟩ := completeOutput_cases hd; exact hlt

/-- Everything `untilStep` can do: a run without a host STEP, up to a STEP or through as many transitions as it may take. -/
theorem untilStep_cases {n : Nat} {s t : State} (h : untilStep n s = .next t) :
    ∃ k, k ≤ n ∧ runSteps k s = .next t ∧ countSteps k s = 0 ∧ (t.nextCmd = some .step ∨ t.env.pending + n ≤ s.env.pending) := by
  induction n generalizing s with
  | zero => simp only [untilStep, Host.Outcome.next.injEq] at h; subst h; exact ⟨0, Nat.le_refl _, rfl, rfl, .inr (Nat.le_refl _)⟩
  | succ n ih =>
    rw [untilStep] at h
    split at h
    · next hc => simp only [Host.Outcome.next.injEq] at h; subst h; exact ⟨0, Nat.zero_le _, rfl, rfl, .inl hc⟩
    · next hc =>
      obtain ⟨u, hu, h⟩ := andThen_eq_next h
      obtain ⟨k, hk, hr, h0, hend⟩ := ih h
      refine ⟨k + 1, by omega, by simp [hu, hr], by simp [countSteps_succ hu, hc, h0], ?_⟩
      have := step_pending hc hu
      exact hend.imp_right fun _ => by omega

/-- With nothing queued the host steps (log 2), whether or not a step waits. -/
theorem nextCmd_of_pending_zero {s : State} (h : s.env.pending = 0) : s.nextCmd = some .step := by
  by_contra hc
  have hm : (nextMove s).1 ≠ .cmd .step := by
    intro hm; exact hc (by simp [State.nextCmd, hm])
  have := nextMove_pending hm
  omega

/-- Given all that is queued, `untilStep` ends where the host is about to STEP. -/
theorem untilStep_pending {s t : State} (h : untilStep s.env.pending s = .next t) :
    ∃ k, runSteps k s = .next t ∧ countSteps k s = 0 ∧ t.nextCmd = some .step := by
  obtain ⟨k, _, hr, h0, hend⟩ := untilStep_cases h
  exact ⟨k, hr, h0, hend.elim id fun _ => nextCmd_of_pending_zero (by omega)⟩

end Sys2Proof.Machine
end

