-- ==== Sys2Proof/Laws/Matching.lean ====
section
/-! SUPPORT. Where the bracket scans can end (R245): their results lie inside the program, on the right side of their start. -/

namespace Sys2Proof.Machine

open Sys2Proof

theorem scanFwd_bounds {P : Nat → Code} {left k depth j : Nat} (h : scanFwd P left k depth = some j) :
    k ≤ j ∧ j < k + left := by
  induction left generalizing k depth with
  | zero => simp [scanFwd] at h
  | succ left ih =>
    rw [scanFwd] at h
    split at h
    · simp at h; omega
    · have := ih h; omega

theorem scanBwd_bounds {P : Nat → Code} {k depth i : Nat} (h : scanBwd P k depth = some i) : i ≤ k := by
  induction k generalizing depth with
  | zero => rw [scanBwd] at h; split at h <;> simp_all
  | succ k ih =>
    rw [scanBwd] at h
    split at h
    · simp at h; omega
    · have := ih h; omega

/-- A match found forward lies after its bracket, inside the program. -/
theorem matchFwd_bounds {P : Nat → Code} {n i j : Nat} (h : matchFwd P n i = some j) : i < j ∧ j < n := by
  unfold matchFwd at h
  split at h
  · next hi =>
    obtain ⟨left, hl⟩ : ∃ left, n - i = left + 1 := ⟨n - i - 1, by omega⟩
    rw [hl, scanFwd, if_neg (by simp [depthFwd, hi.2])] at h
    have := scanFwd_bounds h
    omega
  · simp at h

/-- A match found backward lies before its bracket. -/
theorem matchBwd_bounds {P : Nat → Code} {n i j : Nat} (h : matchBwd P n j = some i) : i < j ∧ j < n := by
  unfold matchBwd at h
  split at h
  · next hj =>
    cases j with
    | zero => simp [scanBwd, depthBwd, hj.2] at h
    | succ k =>
      rw [scanBwd, if_neg (by simp [depthBwd, hj.2])] at h
      have := scanBwd_bounds h
      omega
  · simp at h

/-- In a balanced program every bracket has a match. -/
theorem Balanced.fwd {P : Nat → Code} {n i : Nat} (h : Balanced P n) (hi : i < n) (hp : P i = codeJF) :
    ∃ j, matchFwd P n i = some j := Option.ne_none_iff_exists'.1 ((h i hi).1 hp)

theorem Balanced.bwd {P : Nat → Code} {n i : Nat} (h : Balanced P n) (hi : i < n) (hp : P i = codeJB) :
    ∃ k, matchBwd P n i = some k := Option.ne_none_iff_exists'.1 ((h i hi).2 hp)

end Sys2Proof.Machine
end

