-- ==== Sys2Proof/Laws/Invariant.lean ====
section
/-! SUPPORT. The small facts about the block's invariant: it does not look at the agents outside, what it gives in a built
block, and where an instruction placed from outside runs. -/

namespace Sys2Proof.Machine

open Sys2Proof

/-- The invariant says nothing of the agents outside. -/
theorem BlockInv.withEnv {s : State} (h : BlockInv s) (e : Env) : BlockInv { s with env := e } :=
  ⟨h.hw, h.tapeForm, h.progForm, h.pcRange, h.tapeLenRange, h.progLenRange, h.mpRange, h.tapeBuilt, h.validLen, h.noVm,
    h.running, h.halted, h.codes, h.balanced, h.waitInput, h.waitOutput, h.causeHeld, h.infoHeld, h.stageRange,
    h.stageCodes, h.stageBadop, h.stageNoBadop, h.stageBadopRange⟩

theorem BlockInv.sameBlock {s s0 : State} (h : BlockInv s) (hs : SameBlock s s0) : BlockInv s0 := by
  rw [hs]; exact h.withEnv _

/-- In a built block the current cell exists (R88). -/
theorem BlockInv.onTape {s : State} (h : BlockInv s) (hb : s.built = true) : s.mp < s.tapeLen := by
  rcases h.mpRange with hm | ⟨_, h0⟩
  · exact hm
  · have := (h.tapeBuilt hb).1; omega

/-- A block under construction waits for nothing (R43). -/
theorem BlockInv.idleLoading {s : State} (h : BlockInv s) (hl : s.engState = .loading) : s.ioWait = .idle := by
  cases hi : s.ioWait with
  | idle => rfl
  | input => have := (h.waitInput hi).1; rw [hl] at this; cases this
  | output => have := (h.waitOutput hi).1; rw [hl] at this; cases this

/-- ENG_STATE at the end of a step is RUNNING or HALTED (R156). -/
theorem builtState_cases (pc n : Nat) :
    (builtState pc n = .running ∧ pc < n) ∨ (builtState pc n = .halted ∧ n ≤ pc) := by
  by_cases h : pc < n
  · exact .inl ⟨if_pos h, h⟩
  · exact .inr ⟨if_neg h, Nat.le_of_not_lt h⟩

/-- PC after the post-increment still fits its register (R155). -/
theorem incPc_le {hw : Params} {pc : Nat} (h : pc ≤ hw.pcMax) : incPc hw pc ≤ hw.pcMax := by
  unfold incPc; split <;> omega

/-- The step after `withFetchWord` runs the instruction the placed character decodes to, whatever the state. -/
theorem withFetchWord_runs (s : State) (nbits w : Nat) (i : Instr) (hp : Store.wf s.prog = true)
    (hi : decodeSource (BitVec.ofNat 21 (w % 2 ^ nbits)) = .ok i) :
    step (s.withFetchWord nbits w) =
      andThen (exec i { s.withFetchWord nbits w with env := s.env }) fun t => .next (answerStep t) := by
  have hcmd : nextMove (s.withFetchWord nbits w) = (.cmd .step, { s.withFetchWord nbits w with env := s.env }) := rfl
  have hpc : s.pc < if s.pc < s.progLen then s.progLen else s.pc + 1 := by split <;> omega
  have hfetch : fetchCode { s.withFetchWord nbits w with env := s.env } =
      decodeChar (BitVec.ofNat 21 (w % 2 ^ nbits)) := by
    simp [fetchCode, State.get, State.progRead, State.withFetchWord, placeCode, hpc, Store.read_write_self _ _ _ hp]
  have hdec : decodeCode (decodeChar (BitVec.ofNat 21 (w % 2 ^ nbits))) = .ok i := hi
  rw [step_of_cmd hcmd]
  simp only [doCmd, doStep, hfetch, hdec]
  rfl

end Sys2Proof.Machine
end

