-- ==== Sys2Proof/Laws/PerInstr.lean ====
section
/-! SUPPORT. A statement per instruction as syntax: its stored code and its source character, one lemma per kind. -/

namespace Sys2Proof.Laws.RoundTrip

open Sys2Proof

/-- The kind is read back from its stored code and from its source character, and its code is no reserved one (R124, R125). -/
def Statement (i : Instr) : Prop :=
  decodeCode (encodeCode i) = .ok i ∧ decodeSource (encodeChar i) = .ok i ∧ codeAssigned (encodeCode i) = true

theorem incrementPointer : Statement .incrementPointer := ⟨rfl, rfl, rfl⟩
theorem decrementPointer : Statement .decrementPointer := ⟨rfl, rfl, rfl⟩
theorem incrementValue : Statement .incrementValue := ⟨rfl, rfl, rfl⟩
theorem decrementValue : Statement .decrementValue := ⟨rfl, rfl, rfl⟩
theorem outputValue : Statement .outputValue := ⟨rfl, rfl, rfl⟩
theorem inputValue : Statement .inputValue := ⟨rfl, rfl, rfl⟩
theorem jumpForward : Statement .jumpForward := ⟨rfl, rfl, rfl⟩
theorem jumpBackward : Statement .jumpBackward := ⟨rfl, rfl, rfl⟩
theorem noOp : Statement .noOp := ⟨rfl, rfl, rfl⟩

end Sys2Proof.Laws.RoundTrip
end

