-- ==== Sys2Proof/Tests/Slice0.lean ====
section
/-! SUPPORT. Tests against the spec's own words: the encodings of 30_encoding.md, the vectors of 95_test_vectors.md (named in
each comment), ill-formed terms that the checks refuse, and for every statement with hypotheses a witness that meets them. -/

namespace Sys2Proof.Tests

open Sys2Proof Sys2Proof.Machine

/-! ### Helpers -/

/-- A step that answers a next state with a property. -/
def nextIs (o : Host.Outcome State Fault Refusal) (p : State → Bool) : Bool :=
  match o with
  | .next t => p t
  | .fault _ => false
  | .refused _ => false

/-- The smallest instance R8 allows. -/
def small : Params := { tapeMax := 30000, progMax := 10, pcW := 4, mpW := 15, inputAcceptMax := 128 }

/-- A program's entries from index `i` on, in the store's canonical form. -/
def storeOf : Nat → List Code → Store 4
  | _, [] => []
  | i, k :: t => if k = 0#4 then storeOf (i + 1) t else (i, k) :: storeOf (i + 1) t

/-- A block with a program, a PC, an MP, a tape and its agents. -/
def block (e : EngState) (codes : List Code) (pc mp tapeLen : Nat) (tape : Memory) (env : Env) : State :=
  { State.resetOf small env with
    engState := e, pc := pc, mp := mp, tapeLen := tapeLen, tape := tape,
    prog := storeOf 0 codes, progValid := decide (1 ≤ codes.length), progLen := codes.length }

/-- A running block on a tape of 30000 cells with nothing queued: its next step is a STEP of the host. -/
def running (codes : List Code) (pc mp : Nat) (tape : Memory) : State :=
  block .running codes pc mp 30000 tape Env.empty

/-- A build in progress with the given entries pushed. -/
def loading (mode : BuildMode) (codes : List Code) (inputPresent : Bool) (env : Env) : State :=
  { block .loading [] 0 0 0 [] env with
    prog := storeOf 0 codes
    stage := { Stage.empty with mode := mode, inputPresent := inputPresent, len := codes.length } }

/-- The agents with one host command queued. -/
def asks (c : Cmd) : Env := { Env.empty with cmds := [c] }

/-! ### The checks refuse ill-formed terms -/

theorem test_wf_small : small.wf = true := by decide
theorem test_wf_tapeMaxTooSmall : Params.wf { small with tapeMax := 29999 } = false := by decide
theorem test_wf_tapeMaxTooLarge : Params.wf { small with tapeMax := 2 ^ 32, mpW := 32 } = false := by decide
theorem test_wf_progMaxTooSmall : Params.wf { small with progMax := 9 } = false := by decide
theorem test_wf_progMaxTooLarge : Params.wf { small with progMax := 2 ^ 31, pcW := 32 } = false := by decide
theorem test_wf_progMaxAbovePcMax : Params.wf { small with progMax := 16 } = false := by decide
theorem test_wf_pcTooWide : Params.wf { small with pcW := 33 } = false := by decide
theorem test_wf_mpTooNarrow : Params.wf { small with mpW := 14 } = false := by decide
theorem test_wf_mpTooWide : Params.wf { small with mpW := 33 } = false := by decide
theorem test_wf_inputAcceptMax : Params.wf { small with inputAcceptMax := 129 } = false := by decide
theorem test_codeAssigned_boundary : codeAssigned 0x8#4 = true ∧ codeAssigned 0x9#4 = false ∧ codeAssigned 0xF#4 = false := by
  decide
theorem test_fitsCharCode_boundary : fitsCharCode 0x1FFFFF = true ∧ fitsCharCode 0x200000 = false := by decide
theorem test_decode_widerThanPort : decodeWord 0x200000 = .error (.widerThanCharCode 0x200000) ∧
    decodeTableWord 24 0x20003E = none := ⟨rfl, rfl⟩
theorem test_decode_reservedCode : decodeCode 0x9#4 = .error (.reservedCode 0x9#4) := rfl

/-! ### Decoding, words of the opcode table (R121, R124) -/

theorem test_decode_incrementPointer : decodeTableWord 24 0x3E = some .incrementPointer ∧ decodeChar 0x3E#21 = 1#4 := by decide
theorem test_decode_decrementPointer : decodeTableWord 24 0x3C = some .decrementPointer ∧ decodeChar 0x3C#21 = 2#4 := by decide
theorem test_decode_incrementValue : decodeTableWord 24 0x2B = some .incrementValue ∧ decodeChar 0x2B#21 = 3#4 := by decide
theorem test_decode_decrementValue : decodeTableWord 24 0x2D = some .decrementValue ∧ decodeChar 0x2D#21 = 4#4 := by decide
theorem test_decode_outputValue : decodeTableWord 24 0x2E = some .outputValue ∧ decodeChar 0x2E#21 = 5#4 := by decide
theorem test_decode_inputValue : decodeTableWord 24 0x2C = some .inputValue ∧ decodeChar 0x2C#21 = 6#4 := by decide
theorem test_decode_jumpForward : decodeTableWord 24 0x5B = some .jumpForward ∧ decodeChar 0x5B#21 = 7#4 := by decide
theorem test_decode_jumpBackward : decodeTableWord 24 0x5D = some .jumpBackward ∧ decodeChar 0x5D#21 = 8#4 := by decide
/-- E3: 'x', 0, ' ' and the largest code are NoOp. -/
theorem test_decode_noOp : decodeTableWord 24 0x78 = some .noOp ∧ decodeTableWord 24 0x00 = some .noOp ∧
    decodeTableWord 24 0x20 = some .noOp ∧ decodeTableWord 24 0x1FFFFF = some .noOp := by decide

/-- Each table word, placed where the step after reset fetches, runs and advances (or waits on its channel; a lone `[` with a
zero cell has no match). -/
theorem test_placed_words :
    (∀ w ∈ [0x3E, 0x3C, 0x2B, 0x2D, 0x5D, 0x00],
      nextIs (step (State.reset.withFetchWord 24 w)) fun t => t.pc == 1 && t.env.resp == some .done) ∧
    nextIs (step (State.reset.withFetchWord 24 0x5B)) (fun t => t.faultCause == .runUnmatchedJF && t.pc == 0) = true ∧
    nextIs (step (State.reset.withFetchWord 24 0x2E)) (fun t => t.ioWait == .output) = true ∧
    nextIs (step (State.reset.withFetchWord 24 0x2C)) (fun t => t.ioWait == .input) = true := by decide

/-! ### One step, vectors of 95_test_vectors.md section 2 -/

/-- P-2. -/
theorem test_incrementPointer_wraps :
    nextIs (step (running [1#4] 0 29999 [])) (fun t => t.mp == 0 && t.pc == 1 && t.engState == .halted) = true := by decide
/-- P-5: TAPE_LEN 1. -/
theorem test_incrementPointer_oneCell :
    nextIs (step (block .running [1#4] 0 0 1 [] Env.empty)) (fun t => t.mp == 0 && t.pc == 1) = true := by decide
/-- P-3. -/
theorem test_decrementPointer_wraps :
    nextIs (step (running [2#4] 0 0 [])) (fun t => t.mp == 29999 && t.pc == 1) = true := by decide
/-- P-4. -/
theorem test_decrementPointer_moves :
    nextIs (step (running [2#4] 0 5 [])) (fun t => t.mp == 4) = true := by decide
/-- V-3: the cell's entry leaves the canonical form. -/
theorem test_incrementValue_wraps :
    nextIs (step (running [3#4] 0 7 [(7, 255#8)])) (fun t => t.tape == [] && t.pc == 1) = true := by decide
/-- V-7. -/
theorem test_incrementValue_127 :
    nextIs (step (running [3#4] 0 7 [(7, 127#8)])) (fun t => t.tape == [(7, 128#8)]) = true := by decide
/-- V-5. -/
theorem test_decrementValue_wraps :
    nextIs (step (running [4#4] 0 7 [(8, 1#8)])) (fun t => t.tape == [(7, 255#8), (8, 1#8)]) = true := by decide
/-- V-6. -/
theorem test_decrementValue_128 :
    nextIs (step (running [4#4] 0 7 [(7, 128#8)])) (fun t => t.tape == [(7, 127#8)]) = true := by decide
/-- O-4: an ERR answer changes nothing. -/
theorem test_output_errIsDiscarded :
    nextIs (step (block .running [5#4] 0 7 30000 [(7, 7#8)] { Env.empty with outputs := [some .err] }))
      (fun t => t.env.emitted == [7#8] && t.pc == 1 && t.faultCause == .none && t.env.resp == some .done) = true := by decide
/-- O-5: ENG_STATUS is 0x12 while no answer comes. -/
theorem test_output_waits :
    nextIs (step (running [5#4] 0 7 [(7, 7#8)]))
      (fun t => csrWord t 0x00#8 == some 0x12#32 && csrWord t 0x03#8 == some 0#32 && t.env.emitted == []) = true := by decide
/-- I-4 and I-5. -/
theorem test_input_acceptMax :
    nextIs (step (block .running [6#4] 0 7 30000 [(7, 9#8)] { Env.empty with inputs := [some (.ok 128#8)] }))
      (fun t => t.tape == [(7, 128#8)] && t.pc == 1 && t.env.consumed == [.ok 128#8]) = true ∧
    nextIs (step (block .running [6#4] 0 7 30000 [(7, 9#8)] { Env.empty with inputs := [some (.ok 129#8)] }))
      (fun t => t.tape == [(7, 9#8)] && t.pc == 1 && t.env.consumed == [.ok 129#8]) = true := by decide
/-- I-10: ENG_STATUS is 0x0A while no answer comes. -/
theorem test_input_waits :
    nextIs (step (running [6#4] 0 7 [(7, 9#8)])) (fun t => csrWord t 0x00#8 == some 0x0A#32 && t.pc == 0) = true := by decide
/-- J-1 and J-8: the jump lands one past its match. -/
theorem test_jumpForward_skips :
    nextIs (step (running [7#4, 3#4, 8#4, 5#4] 0 0 [])) (fun t => t.pc == 3 && t.engState == .running) = true ∧
    nextIs (step (running [7#4, 7#4, 8#4, 8#4] 0 0 [])) (fun t => t.pc == 4 && t.engState == .halted) = true := by decide
/-- J-2. -/
theorem test_jumpForward_fallsThrough :
    nextIs (step (running [7#4, 3#4, 8#4, 5#4] 0 0 [(0, 5#8)])) (fun t => t.pc == 1 && t.tape == [(0, 5#8)]) = true := by decide
/-- J-6. -/
theorem test_jumpBackward_returns :
    nextIs (step (running [3#4, 3#4, 7#4, 4#4, 8#4] 4 0 [(0, 1#8)])) (fun t => t.pc == 3 && t.engState == .running) = true := by
  decide
/-- J-7. -/
theorem test_jumpBackward_fallsThrough :
    nextIs (step (running [3#4, 3#4, 7#4, 4#4, 8#4] 4 0 [])) (fun t => t.pc == 5 && t.engState == .halted) = true := by decide
/-- J-10. -/
theorem test_noOp :
    nextIs (step (running [0#4] 0 0 [(3, 1#8)])) (fun t => t.pc == 1 && t.engState == .halted && t.tape == [(3, 1#8)]) = true := by
  decide
/-- S-2: PC saturates at PC_MAX. -/
theorem test_halted_saturates :
    nextIs (step (block .halted [0#4] 15 0 1 [] Env.empty)) (fun t => t.pc == 15 && t.env.resp == some .done) = true := by decide

/-! ### Matching and Validate (E6, E9, 2.5, 2.6) -/

def at_ (codes : List Code) (i : Nat) : Code := codes.getD i 0#4

theorem test_match_nested :   -- `[[]]`, E6
    matchFwd (at_ [7#4, 7#4, 8#4, 8#4]) 4 0 = some 3 ∧ matchFwd (at_ [7#4, 7#4, 8#4, 8#4]) 4 1 = some 2 ∧
    matchBwd (at_ [7#4, 7#4, 8#4, 8#4]) 4 2 = some 1 ∧ matchBwd (at_ [7#4, 7#4, 8#4, 8#4]) 4 3 = some 0 ∧
    matchFwd (at_ [7#4, 7#4, 8#4, 8#4]) 4 2 = none := by decide
theorem test_match_sequence :   -- `[][]`, 2.5
    matchFwd (at_ [7#4, 8#4, 7#4, 8#4]) 4 0 = some 1 ∧ matchFwd (at_ [7#4, 8#4, 7#4, 8#4]) 4 2 = some 3 ∧
    matchBwd (at_ [7#4, 8#4, 7#4, 8#4]) 4 3 = some 2 := by decide
theorem test_validate :   -- L-1 to L-8
    validate (at_ [7#4, 8#4]) 2 = none ∧
    validate (at_ [7#4]) 1 = some (.loadUnmatchedJF, 0) ∧
    validate (at_ [8#4]) 1 = some (.loadUnmatchedJB, 0) ∧
    validate (at_ [8#4, 7#4]) 2 = some (.loadUnmatchedJB, 0) ∧
    validate (at_ [7#4, 8#4, 8#4]) 3 = some (.loadUnmatchedJB, 2) ∧
    validate (at_ [7#4, 7#4, 8#4]) 3 = some (.loadUnmatchedJF, 0) ∧
    validate (at_ [0#4, 8#4, 0#4, 7#4]) 4 = some (.loadUnmatchedJB, 1) ∧
    validate (at_ [7#4, 8#4, 7#4]) 3 = some (.loadUnmatchedJF, 2) := by decide
theorem test_validateOnePass :
    validateOnePass (at_ [7#4, 8#4, 8#4]) 3 = some (.loadUnmatchedJB, 2) ∧
    validateOnePass (at_ [7#4, 7#4, 8#4]) 3 = some (.loadUnmatchedJF, 0) ∧
    validateOnePass (at_ [0#4, 8#4, 0#4, 7#4]) 4 = some (.loadUnmatchedJB, 1) ∧
    validateOnePass (at_ [7#4, 7#4, 8#4, 8#4]) 4 = none := by decide

/-! ### Builds and host reads (2.6 to 2.9) -/

/-- L-10: an empty program is built HALTED, and PROG_LEN reads 0. -/
theorem test_build_empty :
    nextIs (step (loading .suppliedProgram [] true (asks .buildCommit)))
      (fun t => t.engState == .halted && csrWord t 0x07#8 == some 0#32 && t.env.resp == some .ok && t.tapeLen == 30000) = true := by
  decide
/-- L-9. -/
theorem test_build_unmatched :
    nextIs (step (loading .suppliedProgram [3#4, 7#4, 4#4] true (asks .buildCommit)))
      (fun t => t.faultCause == .loadUnmatchedJF && t.faultInfo == 1#32 && t.engState == .fault &&
        t.env.resp == some (.faulted .loadUnmatchedJF)) = true := by decide
/-- E4: the default VM. -/
theorem test_build_default :
    nextIs (step (loading .defaultProgram [] true (asks .buildCommit)))
      (fun t => csrWord t 0x06#8 == some 30000#32 && csrWord t 0x07#8 == some 0x8000000A#32 && csrWord t 0x00#8 == some 2#32 &&
        csrWord t 0x08#8 == some 0x10#32) = true := by decide
/-- B-3: CONFIG_NO_INPUT beats the bad size and the bracket. -/
theorem test_build_noInputFirst :
    nextIs (step { loading .suppliedProgram [8#4] false (asks .buildCommit) with
      stage := { mode := .suppliedProgram, tsValid := true, tsValue := 0#32, inputPresent := false, len := 1,
                 overflow := false, badopSeen := false, badopIndex := 0 } })
      (fun t => t.faultCause == .configNoInput && t.faultInfo == 0#32) = true := by decide
/-- S-8, S-10, R-4 and R-6 on `>+`. -/
theorem test_host_reads :
    csrWord (running [1#4, 3#4] 0 0 []) 0x08#8 = some 0x11#32 ∧ csrWord (running [1#4, 3#4] 0 0 []) 0x10#8 = none ∧
    nextIs (step { running [1#4, 3#4] 0 0 [] with env := asks (.readProg 2 .index) })
      (fun t => t.engState == .fault && t.faultCause == .bounds && t.faultInfo == 2#32) = true ∧
    nextIs (step { running [1#4, 3#4] 0 0 [] with env := asks (.readTape 30000#32) })
      (fun t => t.env.resp == some (.tape .invalid 0#8) && t.engState == .running) = true := by decide
/-- 2.10: after RESET, STAGE_BADOP_INDEX and BUILD_STAGE read 0, from a build that had seen a reserved code. -/
theorem test_reset_badopIndex :
    nextIs (step { loading .suppliedProgram [9#4] true (asks .reset) with
      stage := { Stage.empty with mode := .suppliedProgram, len := 1, badopSeen := true, badopIndex := 1 } })
      (fun t => csrWord t 0x0F#8 == some 0#32 && csrWord t 0x0C#8 == some 0#32) = true := by decide
/-- S-4. -/
theorem test_reset_stepIsRefused :
    nextIs (step State.reset) (fun t => t.env.resp == some .refused && t.engState == .unbuilt) = true := by decide

/-! ### Witnesses: for every statement with hypotheses, a concrete state and operands that meet them -/

/-- The invariant as decidable conjunctions: the contents and ranges, the engine, the fault and the build. -/
abbrev InvRanges (s : State) : Prop :=
  s.hw.wf = true ∧ Memory.wf s.tape = true ∧ Store.wf s.prog = true ∧ s.pc ≤ s.hw.pcMax ∧ s.tapeLen ≤ s.hw.tapeMax ∧
    s.progLen ≤ s.hw.progMax ∧ (s.mp < s.tapeLen ∨ (s.mp = 0 ∧ s.tapeLen = 0)) ∧
    (s.built = true → 0 < s.tapeLen ∧ ∀ c ∈ s.tape, c.1 < s.tapeLen) ∧ s.progValid = decide (1 ≤ s.progLen)
abbrev InvEngine (s : State) : Prop :=
  (s.engState = .unbuilt ∨ s.engState = .loading → s.pc = 0 ∧ s.tapeLen = 0 ∧ s.progLen = 0) ∧
    (s.engState = .running → s.pc < s.progLen) ∧ (s.engState = .halted → s.progLen ≤ s.pc) ∧
    (s.built = true → ∀ i, i < s.progLen → codeAssigned (s.progRead i) = true) ∧
    (s.built = true → Balanced s.progRead s.progLen) ∧
    (s.ioWait = .input → s.engState = .running ∧ s.progRead s.pc = encodeCode .inputValue) ∧
    (s.ioWait = .output → s.engState = .running ∧ s.progRead s.pc = encodeCode .outputValue)
abbrev InvFault (s : State) : Prop :=
  (s.faultCause = .none ↔ s.engState ≠ .fault) ∧ (s.engState ≠ .fault → s.faultInfo = 0#32) ∧
    s.stage.len ≤ s.hw.progMax ∧
    (s.engState = .loading → s.stage.badopSeen = false → ∀ i, i < s.stage.len → codeAssigned (s.progRead i) = true) ∧
    (s.engState = .loading → s.stage.badopSeen = true →
      s.stage.badopIndex < s.stage.len ∧ codeAssigned (s.progRead s.stage.badopIndex) = false ∧
        ∀ i, i < s.stage.badopIndex → codeAssigned (s.progRead i) = true) ∧
    (s.stage.badopSeen = false → s.stage.badopIndex = 0) ∧ s.stage.badopIndex ≤ s.hw.progMax

/-- A state that meets the conjunctions meets the invariant. -/
theorem inv_of_check {s : State} (hr : InvRanges s) (he : InvEngine s) (hf : InvFault s) : BlockInv s := by
  obtain ⟨a1, a2, a3, a4, a5, a6, a7, a8, a9⟩ := hr
  obtain ⟨b1, b2, b3, b4, b5, b6, b7⟩ := he
  obtain ⟨c1, c2, c3, c4, c5, c6, c7⟩ := hf
  exact ⟨a1, a2, a3, a4, a5, a6, a7, a8, a9, b1, b2, b3, b4, b5, b6, b7, c1, c2, c3, c4, c5, c6, c7⟩

/-- `[.]` about to take its `[` with a zero cell; `+[-]` at its `]` with cell 1; a program that ends in a `]`. -/
def atJF : State := running [7#4, 5#4, 8#4] 0 0 []
def atJFmid : State := running [7#4, 5#4, 8#4, 0#4] 0 29999 []
def atJB : State := running [3#4, 7#4, 4#4, 8#4] 3 0 [(0, 1#8)]
/-- The end of `>+`, HALTED. -/
def atEnd : State := block .halted [1#4, 3#4] 2 1 30000 [(1, 1#8)] Env.empty
/-- Waiting for input and for output. -/
def waitIn (env : Env) : State := { block .running [6#4] 0 7 30000 [(7, 9#8)] env with ioWait := .input }
def waitOut (env : Env) : State := { block .running [5#4] 0 7 30000 [(7, 9#8)] env with ioWait := .output }
/-- A FAULT (L-2), and UNBUILT. -/
def faulted (env : Env) : State :=
  { loading .suppliedProgram [7#4] true env with engState := .fault, faultCause := .loadUnmatchedJF }
def unbuilt (env : Env) : State := State.resetOf small env
/-- LOADING after INSTR 3, INSTR 9 (B-11). -/
def badSeen : State :=
  { loading .suppliedProgram [3#4, 9#4] true Env.empty with
    stage := { Stage.empty with mode := .suppliedProgram, inputPresent := true, len := 2, badopSeen := true, badopIndex := 1 } }

/-- A build one entry below PROG_MAX, and one at PROG_MAX. -/
def almostFull (env : Env) : State :=
  loading .suppliedProgram [0#4, 0#4, 0#4, 0#4, 0#4, 0#4, 0#4, 0#4, 7#4] true env
def full (env : Env) : State :=
  loading .suppliedProgram [0#4, 0#4, 0#4, 0#4, 0#4, 0#4, 0#4, 0#4, 0#4, 7#4] true env
/-- Staging registers, and a build of the program `[` with them. -/
def stageOf (mode : BuildMode) (tsValid : Bool) (tsValue : Word) (inputPresent : Bool) : Stage :=
  { mode := mode, tsValid := tsValid, tsValue := tsValue, inputPresent := inputPresent, len := 1, overflow := false,
    badopSeen := false, badopIndex := 0 }
def building (st : Stage) (env : Env) : State := { loading .suppliedProgram [7#4] true env with stage := st }

theorem inv_atJF : BlockInv atJF := inv_of_check (by decide) (by decide) (by decide)
theorem inv_atJFmid : BlockInv atJFmid := inv_of_check (by decide) (by decide) (by decide)
theorem inv_atJB : BlockInv atJB := inv_of_check (by decide) (by decide) (by decide)
theorem inv_atEnd : BlockInv atEnd := inv_of_check (by decide) (by decide) (by decide)
theorem inv_waitIn : BlockInv (waitIn Env.empty) := inv_of_check (by decide) (by decide) (by decide)
theorem inv_waitOut : BlockInv (waitOut Env.empty) := inv_of_check (by decide) (by decide) (by decide)
theorem inv_faulted : BlockInv (faulted Env.empty) := inv_of_check (by decide) (by decide) (by decide)
theorem inv_badSeen : BlockInv badSeen := inv_of_check (by decide) (by decide) (by decide)
theorem inv_loading : BlockInv (loading .suppliedProgram [3#4, 7#4] true Env.empty) := inv_of_check (by decide) (by decide) (by decide)
/-- The invariant rules states out: an unmatched bracket, an MP off the tape, a PC past the end of a RUNNING program. -/
theorem test_inv_refuses :
    ¬ BlockInv (running [7#4] 0 0 []) ∧ ¬ BlockInv (running [0#4] 0 30000 []) ∧ ¬ BlockInv (running [0#4] 1 0 []) :=
  ⟨fun h => absurd (h.balanced rfl) (by unfold State.balanced; decide), fun h => absurd h.mpRange (by decide),
    fun h => absurd (h.running rfl) (by decide)⟩

/-! Encoding. -/

/-- The neighbours of the command characters (also for NoOpOnlyAdvances). -/
theorem witness_OtherCharactersAreNoOp :
    (0x3D#21 ≠ 0x3E#21 ∧ 0x3D#21 ≠ 0x3C#21 ∧ 0x3D#21 ≠ 0x2B#21 ∧ 0x3D#21 ≠ 0x2D#21 ∧ 0x3D#21 ≠ 0x2E#21 ∧ 0x3D#21 ≠ 0x2C#21 ∧
      0x3D#21 ≠ 0x5B#21 ∧ 0x3D#21 ≠ 0x5D#21) ∧
    decodeChar 0x00#21 = 0#4 ∧ decodeChar 0x2A#21 = 0#4 ∧ decodeChar 0x2F#21 = 0#4 ∧ decodeChar 0x3D#21 = 0#4 ∧
    decodeChar 0x3F#21 = 0#4 ∧ decodeChar 0x5A#21 = 0#4 ∧ decodeChar 0x5C#21 = 0#4 ∧ decodeChar 0x5E#21 = 0#4 ∧
    decodeChar 0x1FFFFF#21 = 0#4 := by decide
theorem witness_DecodeEncodeAgree : codeAssigned 0x8#4 = true ∧ codeAssigned 0x9#4 = false ∧ codeAssigned 0xF#4 = false := by
  decide
/-- A build with room for exactly the two instructions pushed. -/
theorem witness_LoadingAStringStagesItsInstructions :
    let s := loading .suppliedProgram [0#4, 0#4, 0#4, 0#4, 0#4, 0#4, 0#4, 7#4] true
      { Env.empty with cmds := [.progPushChar 0x3E#21, .progPushChar 0x5D#21, .buildCommit] }
    s.engState = .loading ∧ s.stage.mode = .suppliedProgram ∧ s.ioWait = .idle ∧ Store.wf s.prog = true ∧
      s.stage.len + [Instr.incrementPointer, .jumpBackward].length = s.hw.progMax ∧
      s.env.cmds = [Instr.incrementPointer, .jumpBackward].map (fun i => Cmd.progPushChar (encodeChar i)) ++ [.buildCommit] := by
  decide

/-! The step. -/

theorem witness_WhoMovesNext :
    ((running [0#4] 0 0 []).ioWait = .idle ∧ (running [0#4] 0 0 []).env.cmds = []) ∧
    ((unbuilt (asks .reset)).ioWait = .idle ∧ (unbuilt (asks .reset)).env.cmds = .reset :: []) ∧
    ((waitIn (asks .reset)).ioWait = .input ∧ (waitIn (asks .reset)).env.inputs = [] ∧
      (waitIn (asks .reset)).env.cmds = .reset :: []) ∧
    ((waitIn { asks .step with inputs := [none, some .err] }).env.inputs = none :: [some .err]) ∧
    ((waitOut (asks .reset)).ioWait = .output ∧ (waitOut (asks .reset)).env.outputs = [] ∧
      (waitOut (asks .reset)).env.cmds = .reset :: []) ∧
    ((waitOut { asks .step with outputs := [none] }).env.outputs = none :: []) := by decide
/-- The last entry of a program, and one past it. -/
theorem witness_StepRunsTheDecodedInstruction :
    (nextMove (running [1#4, 3#4] 1 0 []) = (.cmd .step, running [1#4, 3#4] 1 0 []) ∧
      decodeCode ((running [1#4, 3#4] 1 0 []).progRead 1) = .ok .incrementValue ∧ (running [1#4, 3#4] 1 0 []).ioWait = .idle) ∧
    (nextMove atEnd = (.cmd .step, atEnd) ∧ atEnd.engState = .halted ∧ atEnd.progLen = atEnd.pc) := ⟨⟨rfl, rfl, rfl⟩, rfl, rfl, rfl⟩
/-- Refused in UNBUILT and while waiting; accepted with each of the three answers. The FAULTED one needs a program that no
build makes. -/
theorem witness_StepAcceptance :
    (nextMove (unbuilt Env.empty) = (.cmd .step, unbuilt Env.empty) ∧ (unbuilt Env.empty).engState = .unbuilt) ∧
    (nextMove (waitIn Env.empty) = (.cmd .step, waitIn Env.empty)) ∧
    (nextMove (running [6#4] 0 0 []) = (.cmd .step, running [6#4] 0 0 [])) ∧
    nextIs (step (running [6#4] 0 0 [])) (fun t => t.ioWait != .idle) = true ∧
    nextIs (step (running [7#4] 0 0 [])) (fun t => t.ioWait == .idle && t.engState == .fault) = true ∧
    nextIs (step atEnd) (fun t => t.ioWait == .idle && t.engState != .fault) = true := by decide
theorem witness_EndOfStep : BlockInv atJB ∧ atJB.engState = .running ∧ 3 < atJB.progLen ∧ atJB.progLen = 4 :=
  ⟨inv_atJB, rfl, by decide, rfl⟩
/-- PC at the program's end, and at PC_MAX. -/
theorem witness_HaltedStepOnlyRaisesPc :
    (nextMove atEnd = (.cmd .step, atEnd) ∧ atEnd.engState = .halted ∧ atEnd.ioWait = .idle ∧ atEnd.progLen = atEnd.pc) ∧
    (nextMove { atEnd with pc := 15 } = (.cmd .step, { atEnd with pc := 15 }) ∧ atEnd.hw.pcMax = 15) := by decide
/-- A lone `[` with a zero cell, a lone `]` with a nonzero one. -/
theorem witness_InstructionFaultsArePrecise :
    (running [7#4] 0 0 []).engState ≠ .fault ∧
    nextIs (exec .jumpForward (running [7#4] 0 0 [])) (fun t => t.engState == .fault) = true ∧
    nextIs (exec .jumpBackward (running [8#4] 0 0 [(0, 1#8)])) (fun t => t.engState == .fault) = true := by decide

/-! The instructions. Both ends of the tape, and the tape of one cell. -/

theorem witness_PointerMoves :   -- IncrementPointerMovesRight, DecrementPointerMovesLeft, PointerMovesRoundTrip
    (running [1#4] 0 0 []).mp < (running [1#4] 0 0 []).tapeLen ∧
    (running [1#4] 0 29999 []).mp + 1 = (running [1#4] 0 29999 []).tapeLen := by decide
theorem witness_OneCellTapeKeepsMp :
    (block .running [1#4] 0 0 1 [] Env.empty).tapeLen = 1 ∧ (block .running [1#4] 0 0 1 [] Env.empty).mp = 0 := by decide
theorem witness_PointerFrame : (Instr.incrementPointer = .incrementPointer) ∧ (Instr.decrementPointer = .decrementPointer) :=
  ⟨rfl, rfl⟩
/-- IncrementValueWraps, DecrementValueWraps and CellRoundTrip: a wrapping cell at the tape's end, and a zero cell. -/
theorem witness_CellValues :
    ((running [3#4] 0 29999 [(29999, 255#8)]).mp < (running [3#4] 0 29999 [(29999, 255#8)]).tapeLen ∧
      Memory.wf (running [3#4] 0 29999 [(29999, 255#8)]).tape = true) ∧
    ((running [4#4] 0 0 []).mp < (running [4#4] 0 0 []).tapeLen ∧ Memory.wf (running [4#4] 0 0 []).tape = true) := by decide
theorem witness_CellFrame :
    nextIs (exec .incrementValue (running [3#4] 0 29999 [])) (fun _ => true) = true ∧
    nextIs (exec .decrementValue (running [4#4] 0 0 [])) (fun _ => true) = true := by decide
/-- MP just past the tape (a state no run reaches), and the built state that the last clause is about. -/
theorem witness_CellAccessOutsideTheTapeStops :
    ((running [3#4] 0 30000 []).tapeLen ≤ (running [3#4] 0 30000 []).mp) ∧
    (({ running [6#4] 0 30000 [] with env := { Env.empty with inputs := [some .err] } } : State).env.inputs = some .err :: []) ∧
    (({ running [5#4] 0 30000 [] with env := { Env.empty with outputs := [some .ok] } } : State).env.outputs = some .ok :: []) ∧
    (BlockInv atJFmid ∧ atJFmid.built = true ∧ atJFmid.mp + 1 = atJFmid.tapeLen) :=
  ⟨by decide, rfl, rfl, inv_atJFmid, by decide, by decide⟩
theorem witness_OutputValueEmitsTheCell :
    let s := block .running [5#4] 0 29999 30000 [(29999, 255#8)] { Env.empty with outputs := [some .err, some .ok] }
    (s.mp < s.tapeLen ∧ s.ioWait = .idle ∧ s.env.outputs = some .err :: [some .ok]) ∧
      (running [5#4] 0 0 []).env.outputs.head?.getD none = none := by decide
/-- Answers at the acceptance bound, just past it, and ERR. -/
theorem witness_InputValueWritesAcceptedBytes : ∀ r ∈ [InRsp.ok 128#8, .ok 129#8, .ok 0#8, .err],
    let s := block .running [6#4] 0 29999 30000 [(29999, 9#8)] { Env.empty with inputs := [some r] }
    s.mp < s.tapeLen ∧ Memory.wf s.tape = true ∧ s.ioWait = .idle ∧ s.env.inputs = some r :: [] ∧ s.hw.inputAcceptMax = 128 := by
  decide
theorem witness_IoInstructionsWait :
    (running [6#4] 0 0 []).env.inputs = [] ∧ (waitIn { Env.empty with inputs := [none] }).env.inputs = none :: [] ∧
    (running [5#4] 0 0 []).env.outputs = [] ∧ (waitOut { Env.empty with outputs := [none] }).env.outputs = none :: [] := by decide
theorem witness_AnsweredWaitCompletesTheStep :
    (waitIn { Env.empty with inputs := [some (.ok 65#8)] }).ioWait = .input ∧
    (waitIn { Env.empty with inputs := [some (.ok 65#8)] }).env.inputs = some (.ok 65#8) :: [] ∧
    (waitOut { Env.empty with outputs := [some .err] }).ioWait = .output ∧
    (waitOut { Env.empty with outputs := [some .err] }).env.outputs = some .err :: [] := by decide
theorem witness_UnansweredStepIsStuck :
    ((waitIn Env.empty).env.cmds = [] ∧ (waitIn Env.empty).ioWait = .input ∧ (waitIn Env.empty).env.inputs = []) ∧
    ((waitOut Env.empty).env.cmds = [] ∧ (waitOut Env.empty).ioWait = .output ∧ (waitOut Env.empty).env.outputs = []) := by decide
/-- Fall through, taken, unmatched. -/
theorem witness_JumpForwardSkipsWhenZero :
    (atJF.mp < atJF.tapeLen ∧ Memory.read atJF.tape atJF.mp = 0#8 ∧ matchFwd atJF.progRead atJF.progLen atJF.pc = some 2) ∧
    (Memory.read (running [7#4, 8#4] 0 0 [(0, 5#8)]).tape 0 ≠ 0#8) ∧
    (matchFwd (running [7#4] 0 0 []).progRead 1 0 = none) := by decide
theorem witness_JumpBackwardReturnsWhenNonzero :
    (atJB.mp < atJB.tapeLen ∧ Memory.read atJB.tape atJB.mp ≠ 0#8 ∧ matchBwd atJB.progRead atJB.progLen atJB.pc = some 1) ∧
    (Memory.read (running [7#4, 8#4] 1 0 []).tape 0 = 0#8) ∧
    (matchBwd (running [8#4] 0 0 [(0, 1#8)]).progRead 1 0 = none) := by decide
theorem witness_JumpFrame :
    nextIs (exec .jumpForward atJF) (fun t => t.engState != .fault) = true ∧
    nextIs (exec .jumpBackward atJB) (fun t => t.engState != .fault) = true := by decide
/-- A `]` that ends the program, and one that does not. -/
theorem witness_TakenJumpForwardLanding :
    (BlockInv atJF ∧ atJF.engState = .running ∧ atJF.progRead atJF.pc = encodeCode .jumpForward ∧
      Memory.read atJF.tape atJF.mp = 0#8 ∧ 2 + 1 = atJF.progLen) ∧
    (BlockInv atJFmid ∧ atJFmid.engState = .running ∧ atJFmid.progRead atJFmid.pc = encodeCode .jumpForward ∧
      Memory.read atJFmid.tape atJFmid.mp = 0#8 ∧ 2 + 1 ≠ atJFmid.progLen) :=
  ⟨⟨inv_atJF, by decide⟩, inv_atJFmid, by decide⟩
theorem witness_TakenJumpBackwardLanding :
    BlockInv atJB ∧ atJB.engState = .running ∧ atJB.progRead atJB.pc = encodeCode .jumpBackward ∧
      Memory.read atJB.tape atJB.mp ≠ 0#8 := ⟨inv_atJB, by decide⟩

/-! Matching. The left sides of the equivalences are met by the tests of section "Matching and Validate". -/

theorem witness_BracketsPairUp :
    Balanced (at_ [7#4, 7#4, 8#4, 8#4]) 4 ∧ at_ [7#4, 7#4, 8#4, 8#4] 0 = codeJF ∧ at_ [7#4, 7#4, 8#4, 8#4] 3 = codeJB := by decide

/-! Faults. -/

theorem witness_FaultEntryIsPrecise :   -- by a command, and by an instruction
    (nextIs (step (loading .suppliedProgram [7#4] true (asks .buildCommit))) (fun t => t.engState == .fault) = true ∧
      (loading .suppliedProgram [7#4] true (asks .buildCommit)).engState ≠ .fault) ∧
    nextIs (step (running [7#4] 0 0 [])) (fun t => t.engState == .fault) = true := by decide
/-- FaultIsSticky and UnbuiltCommands, for every command they name. -/
theorem witness_SingleCommands : ∀ c ∈ [Cmd.step, .buildCommit, .progPushChar 0x5B#21, .progPushInstr 9#4, .readProg 0 .get,
      .readProg 0 .index, .readTape 0#32, .readCsr 0x00#8, .readCsr 0x03#8, .buildBegin .defaultProgram false 0#32 true, .reset],
    (nextMove (faulted (asks c)) = (.cmd c, faulted Env.empty) ∧ (faulted Env.empty).engState = .fault ∧
      (faulted Env.empty).ioWait = .idle) ∧
    (nextMove (unbuilt (asks c)) = (.cmd c, unbuilt Env.empty) ∧ (unbuilt Env.empty).engState = .unbuilt ∧
      (unbuilt Env.empty).ioWait = .idle) := by decide
theorem witness_OnlyResetAndBuildBeginLeaveFault :
    (faulted Env.empty).engState = .fault ∧ (faulted Env.empty).ioWait = .idle ∧
    nextIs (step (faulted (asks .reset))) (fun t => t.engState == .unbuilt) = true ∧
    nextIs (step (faulted (asks (.buildBegin .suppliedProgram true 1#32 true)))) (fun t => t.engState == .loading) = true := by
  decide

/-! Reset and build. -/

theorem witness_ResetValues :
    nextMove { atEnd with env := asks .reset } = (.cmd .reset, atEnd) ∧ nextMove (waitOut (asks .reset)) = (.cmd .reset, waitOut Env.empty) :=
  ⟨rfl, rfl⟩
theorem witness_BuildBeginStartsABuild :
    nextMove (faulted (asks (.buildBegin .suppliedProgram true 1#32 false))) =
      (.cmd (.buildBegin .suppliedProgram true 1#32 false), faulted Env.empty) := rfl
/-- Ignored in UNBUILT and in a DEFAULT build; taken at the last free entry; beyond capacity; a reserved code when none and
when one was seen. -/
theorem witness_PushesAppend :
    (nextMove (unbuilt (asks (.progPushChar 0x5B#21))) = (.cmd (.progPushChar 0x5B#21), unbuilt Env.empty)) ∧
    (loading .defaultProgram [] true Env.empty).stage.mode ≠ .suppliedProgram ∧
    (nextMove (almostFull (asks (.progPushInstr 9#4))) = (.cmd (.progPushInstr 9#4), almostFull Env.empty) ∧
      (almostFull Env.empty).engState = .loading ∧ (almostFull Env.empty).stage.mode = .suppliedProgram ∧
      (almostFull Env.empty).stage.len + 1 = (almostFull Env.empty).hw.progMax ∧ Store.wf (almostFull Env.empty).prog = true ∧
      (almostFull Env.empty).stage.badopSeen = false) ∧
    (badSeen.engState = .loading ∧ badSeen.stage.badopSeen = true ∧ badSeen.stage.len < badSeen.hw.progMax) ∧
    ¬ (full Env.empty).stage.len < (full Env.empty).hw.progMax := by decide
/-- The clause on the commit that follows: a push beyond capacity, and a reserved code at the last free entry. -/
theorem witness_PushesAppend_commit : ∀ s ∈ [full Env.empty, almostFull Env.empty],
    nextMove { s with env := asks (.progPushInstr 9#4) } = (.cmd (.progPushInstr 9#4), s) ∧ s.engState = .loading ∧
      s.stage.mode = .suppliedProgram ∧ s.stage.inputPresent = true ∧ s.hw.tapeMax = 30000 ∧ s.stage.tsValid = false ∧
      s.stage.overflow = false := by decide
/-- A build for each clause: no input device, TS_VALUE 0 and TAPE_MAX + 1, then with a good configuration (TS_VALUE 1 and
TAPE_MAX) overflow, a reserved code and a bracket, and the default program. -/
theorem witness_BuildChecksInOrder :
    (∀ st ∈ [stageOf .suppliedProgram true 0#32 false, stageOf .suppliedProgram true 0#32 true,
        stageOf .suppliedProgram true 30001#32 true, { stageOf .suppliedProgram true 1#32 true with overflow := true },
        { stageOf .suppliedProgram true 30000#32 true with badopSeen := true }, stageOf .suppliedProgram false 0#32 true,
        stageOf .defaultProgram false 0#32 true],
      nextMove (building st (asks .buildCommit)) = (.cmd .buildCommit, building st Env.empty) ∧
        (building st Env.empty).engState = .loading) ∧
    small.tapeMax = 30000 ∧ validate (building (stageOf .suppliedProgram false 0#32 true) Env.empty).progRead 1 =
      some (.loadUnmatchedJF, 0) ∧
    (nextMove { atEnd with env := asks .buildCommit } = (.cmd .buildCommit, atEnd) ∧ atEnd.engState ≠ .loading) := by decide
/-- The premise of the zeros of R54, met by a build in progress. -/
theorem witness_BuildConstructsTheVm_inv : BlockInv (loading .suppliedProgram [3#4] true Env.empty) :=
  inv_of_check (by decide) (by decide) (by decide)
/-- A supplied program `[+]` on one cell, an empty one, and the default one on TAPE_MAX cells. -/
theorem witness_BuildConstructsTheVm :
    (∀ s ∈ [{ loading .suppliedProgram [7#4, 3#4, 8#4] true Env.empty with
          stage := { stageOf .suppliedProgram true 1#32 true with len := 3 } },
        loading .suppliedProgram [] true Env.empty, building (stageOf .defaultProgram true 30000#32 true) Env.empty],
      nextMove { s with env := asks .buildCommit } = (.cmd .buildCommit, s) ∧ s.engState = .loading ∧
        s.stage.inputPresent = true ∧ 30000 ≤ s.hw.tapeMax ∧ Store.wf s.prog = true ∧
        (s.stage.tsValid = true → s.stage.tsValue ≠ 0#32 ∧ s.stage.tsValue.toNat ≤ s.hw.tapeMax) ∧
        (s.stage.mode = .suppliedProgram → s.stage.overflow = false ∧ s.stage.badopSeen = false ∧
          Balanced s.progRead s.stage.len)) := by decide
theorem witness_DefaultBuild : ∀ present ∈ [true, false],
    let s := { faulted Env.empty with
      env := { Env.empty with cmds := [.buildBegin .defaultProgram false 0#32 present, .buildCommit, .step] } }
    s.hw.wf = true ∧ s.ioWait = .idle ∧ Store.wf s.prog = true ∧
      s.env.cmds = .buildBegin .defaultProgram false 0#32 present :: .buildCommit :: [.step] := by decide

/-! Host reads and waiting steps. -/

/-- Every address of the map and the first beyond it, in a HALTED block, a LOADING one and a waiting one. -/
theorem witness_RegisterMap :
    (∀ a ∈ [0x00#8, 0x01#8, 0x02#8, 0x03#8, 0x04#8, 0x05#8, 0x06#8, 0x07#8, 0x08#8, 0x09#8, 0x0A#8, 0x0B#8, 0x0C#8, 0x0D#8,
        0x0E#8, 0x0F#8, 0x10#8, 0xFF#8],
      nextMove { atEnd with env := asks (.readCsr a) } = (.cmd (.readCsr a), atEnd) ∧
      nextMove { badSeen with env := asks (.readCsr a) } = (.cmd (.readCsr a), badSeen) ∧
      nextMove (waitOut (asks (.readCsr a))) = (.cmd (.readCsr a), waitOut Env.empty)) ∧
    BlockInv atEnd ∧ BlockInv badSeen ∧ BlockInv (waitOut Env.empty) :=
  ⟨by decide, inv_atEnd, inv_badSeen, inv_waitOut⟩
theorem witness_CurInstrShowsTheNextInstruction :
    (BlockInv atJB ∧ atJB.engState = .running) ∧ (BlockInv atEnd ∧ atEnd.engState ≠ .running) :=
  ⟨⟨inv_atJB, rfl⟩, inv_atEnd, by decide⟩
/-- The last cell, the first index past it, and a block that is not built. -/
theorem witness_ReadTapeAnswers :
    (nextMove { atEnd with env := asks (.readTape 29999#32) } = (.cmd (.readTape 29999#32), atEnd) ∧ atEnd.engState = .halted ∧
      (29999#32).toNat < atEnd.tapeLen) ∧
    (nextMove { atEnd with env := asks (.readTape 30000#32) } = (.cmd (.readTape 30000#32), atEnd) ∧
      ¬ (30000#32).toNat < atEnd.tapeLen) ∧
    (nextMove (unbuilt (asks (.readTape 0#32))) = (.cmd (.readTape 0#32), unbuilt Env.empty)) := by decide
/-- The last entry, the first index past it, the port's largest index, a waiting step and a block that is not built. -/
theorem witness_ReadProgAnswers :
    (∀ i ∈ [1, 2, 15], ∀ m ∈ [ReadMode.get, .index],
      nextMove { atEnd with env := asks (.readProg i m) } = (.cmd (.readProg i m), atEnd) ∧ i < 2 ^ atEnd.hw.pcW ∧
        (i = 1 → i < atEnd.progLen) ∧ (i ≠ 1 → ¬ i < atEnd.progLen)) ∧
    atEnd.ioWait = .idle ∧ atEnd.progValid = true ∧ (waitIn Env.empty).ioWait ≠ .idle ∧
    (unbuilt Env.empty).engState = .unbuilt := by decide
theorem witness_CommandsDuringAWait : ∀ c ∈ [Cmd.step, .readProg 0 .index, .readProg 0 .get, .progPushChar 0x2B#21,
      .progPushInstr 3#4, .buildCommit, .readCsr 0x03#8, .readTape 29999#32, .reset, .buildBegin .defaultProgram false 0#32 true],
    (nextMove (waitIn (asks c)) = (.cmd c, waitIn Env.empty) ∧ (waitIn Env.empty).ioWait ≠ .idle ∧
      (waitIn Env.empty).engState = .running) ∧
    nextMove (waitOut (asks c)) = (.cmd c, waitOut Env.empty) := by decide
theorem witness_AbortedStepHasNoEffect :
    (∃ t, step (waitOut (asks .reset)) = .next t) ∧ Cmd.reset.discardsVm = true ∧ (waitOut Env.empty).ioWait = .output ∧
    (∃ t, step (waitIn (asks (.buildBegin .defaultProgram false 0#32 true))) = .next t) ∧
      (Cmd.buildBegin .defaultProgram false 0#32 true).discardsVm = true ∧ (waitIn Env.empty).ioWait = .input :=
  ⟨⟨_, rfl⟩, rfl, rfl, ⟨_, rfl⟩, rfl, rfl⟩

/-! Whole-machine rules: the invariant holds of concrete states of every kind, and a step is taken from each. -/

theorem witness_InvariantHoldsAtReset : small.wf = true := by decide
/-- EveryStepKeepsTheInvariant and NoRunEverStops: a step from each kind of state. -/
theorem witness_EveryStepKeepsTheInvariant :
    (BlockInv atJF ∧ ∃ t, step atJF = .next t) ∧ (BlockInv atEnd ∧ ∃ t, step atEnd = .next t) ∧
    (BlockInv (waitIn Env.empty) ∧ ∃ t, step (waitIn Env.empty) = .next t) ∧
    (BlockInv (waitOut Env.empty) ∧ ∃ t, step (waitOut Env.empty) = .next t) ∧
    (BlockInv (faulted Env.empty) ∧ ∃ t, step (faulted Env.empty) = .next t) ∧
    (BlockInv badSeen ∧ ∃ t, step badSeen = .next t) :=
  ⟨⟨inv_atJF, _, rfl⟩, ⟨inv_atEnd, _, rfl⟩, ⟨inv_waitIn, _, rfl⟩, ⟨inv_waitOut, _, rfl⟩, ⟨inv_faulted, _, rfl⟩,
    inv_badSeen, _, rfl⟩
theorem witness_RunsNeverMeetAnUnmatchedBracket :
    BlockInv atJB ∧ atJB.faultCause ≠ .runUnmatchedJF ∧ atJB.faultCause ≠ .runUnmatchedJB ∧ ∃ t, runSteps 2 atJB = .next t :=
  ⟨inv_atJB, by decide, by decide, _, rfl⟩
/-- BuiltProgramIsImmutable and OneTransactionAStep: an instruction, the answer to a waiting step, and a host read. -/
theorem witness_BuiltStaysBuilt :
    (atJB.built = true ∧ nextIs (step atJB) (fun t => t.built) = true) ∧
    ((waitOut { Env.empty with outputs := [some .ok] }).built = true ∧
      nextIs (step (waitOut { Env.empty with outputs := [some .ok] })) (fun t => t.built) = true) ∧
    ({ atEnd with env := asks (.readTape 0#32) }.nextCmd = some (.readTape 0#32) ∧
      nextIs (step { atEnd with env := asks (.readTape 0#32) }) (fun t => t.built) = true) := by decide
/-- FuelCountsHostSteps: states of the invariant in which other commands, a waiting step and its late answer are still to
come. -/
theorem witness_FuelCountsHostSteps :
    BlockInv { atEnd with env := { Env.empty with cmds := [.readTape 0#32, .step, .reset] } } ∧
    BlockInv (waitIn { Env.empty with inputs := [none, some (.ok 65#8)] }) :=
  ⟨inv_of_check (by decide) (by decide) (by decide), inv_of_check (by decide) (by decide) (by decide)⟩
/-- R16: a STEP whose answer comes late costs one unit of fuel, and the host commands before and after it cost none. -/
theorem test_fuel_countsHostSteps :
    nextIs (runFuel 1 (block .running [6#4, 0#4] 0 7 30000 []
        { Env.empty with cmds := [.readCsr 0x03#8, .step, .readTape 7#32], inputs := [none, some (.ok 65#8)] }))
      (fun t => t.pc == 1 && t.tape == [(7, 65#8)] && t.env.resp == some (.tape .ok 65#8)) = true := by decide
/-- A STEP, and READ_PROG's BOUNDS fault, from HALTED. -/
theorem witness_HaltedIsTerminal :
    BlockInv atEnd ∧ atEnd.engState = .halted ∧ atEnd.nextCmd = some .step ∧ Cmd.step.discardsVm = false ∧
    nextIs (step atEnd) (fun t => t.engState == .halted) = true ∧
    nextIs (step { atEnd with env := asks (.readProg 2 .index) }) (fun t => t.faultCause == .bounds) = true :=
  ⟨inv_atEnd, by decide⟩

end Sys2Proof.Tests
end

section
/-! SUPPORT. What the decoder answers for an assigned code, and what it says of the code it answered for (R124, R129). -/

namespace Sys2Proof

/-- A code that decodes is the code of its kind. -/
theorem eq_encodeCode_of_decodeCode {k : Code} {i : Instr} (h : decodeCode k = .ok i) : k = encodeCode i := by
  unfold decodeCode at h
  split_ifs at h <;> cases h <;> assumption

/-- An assigned code decodes (R124). -/
theorem decodeCode_of_codeAssigned {k : Code} (h : codeAssigned k = true) : ∃ i, decodeCode k = .ok i := by
  have hlt : k.toNat < 9 := by simpa [codeAssigned] using h
  unfold decodeCode
  split_ifs
  case neg => bv_omega
  all_goals exact ⟨_, rfl⟩

/-- No character decodes to a reserved code (R129). -/
theorem codeAssigned_decodeChar (c : CharCode) : codeAssigned (decodeChar c) = true := by
  unfold decodeChar
  split_ifs <;> rfl

end Sys2Proof
end

section
/-! SUPPORT. Who moves next (R14, log 2, log 3), one equation for each case of the queues; and the two statements about it. -/

namespace Sys2Proof.Machine

open Sys2Proof

theorem takeCmd_nil {s : State} (h : s.env.cmds = []) : takeCmd s = (.cmd .step, s) := by simp [takeCmd, h]

theorem takeCmd_cons {s : State} {c : Cmd} {rest : List Cmd} (h : s.env.cmds = c :: rest) :
    takeCmd s = (.cmd c, { s with env := { s.env with cmds := rest } }) := by simp [takeCmd, h]

theorem nextMove_idle {s : State} (h : s.ioWait = .idle) : nextMove s = takeCmd s := by simp [nextMove, h]

theorem nextMove_inputSilent {s s' : State} (h : s.ioWait = .input) (ht : takeInput s = (none, s')) :
    nextMove s = takeCmd s' := by simp [nextMove, h, ht]

theorem nextMove_inputAnswer {s s' : State} {r : InRsp} (h : s.ioWait = .input) (ht : takeInput s = (some r, s')) :
    nextMove s = (.inputAnswer r, s') := by simp [nextMove, h, ht]

theorem nextMove_outputSilent {s s' : State} (h : s.ioWait = .output) (ht : takeOutput s = (none, s')) :
    nextMove s = takeCmd s' := by simp [nextMove, h, ht]

theorem nextMove_outputAnswer {s s' : State} {r : OutRsp} (h : s.ioWait = .output) (ht : takeOutput s = (some r, s')) :
    nextMove s = (.outputAnswer r, s') := by simp [nextMove, h, ht]

/-- A step that handles an input answer completes the waiting InputValue, then answers the host. -/
theorem step_of_inputAnswer {s s0 : State} {r : InRsp} (h : nextMove s = (.inputAnswer r, s0)) :
    step s = andThen (completeInput r s0) fun t => .next (answerStep t) := by
  simp [step, transition, h, doMove]

/-- A step that handles an output answer completes the waiting OutputValue, then answers the host. -/
theorem step_of_outputAnswer {s s0 : State} {r : OutRsp} (h : nextMove s = (.outputAnswer r, s0)) :
    step s = andThen (completeOutput r s0) fun t => .next (answerStep t) := by
  simp [step, transition, h, doMove]

/-- Completing an I/O instruction overwrites IO_WAIT, so what it held before makes no difference. -/
theorem completeInput_setIoWait (r : InRsp) (w : IoWait) (s : State) :
    completeInput r { s with ioWait := w } = completeInput r s := rfl

theorem completeOutput_setIoWait (r : OutRsp) (w : IoWait) (s : State) :
    completeOutput r { s with ioWait := w } = completeOutput r s := rfl

/-- InputValue with the answer at hand completes with it (R204). -/
theorem execInputValue_answered {s : State} {r : InRsp} {q : List (Option InRsp)} (h : s.env.inputs = some r :: q) :
    exec .inputValue s = completeInput r { s with env := { s.env with inputs := q } } := by
  simp only [exec, execInputValue, takeInput_cons h]

/-- OutputValue with the answer at hand completes with it (R201). -/
theorem execOutputValue_answered {s : State} {r : OutRsp} {q : List (Option OutRsp)} (h : s.env.outputs = some r :: q) :
    exec .outputValue s = completeOutput r { s with env := { s.env with outputs := q } } := by
  simp only [exec, execOutputValue, takeOutput_cons h]

end Sys2Proof.Machine

open Sys2Proof Sys2Proof.Machine

/-- Settles O5: each clause names the case of `nextMove` it is about. -/
theorem whoMovesNext : Obligations.WhoMovesNext := by
  unfold Obligations.WhoMovesNext
  refine ⟨?idleCmd, ?idleStep, ?inputEmpty, ?inputSilent, ?outputEmpty, ?outputSilent⟩
  case idleCmd =>
    intro s c rest hw hc
    exact step_of_cmd ((nextMove_idle hw).trans (takeCmd_cons hc))
  case idleStep =>
    intro s hw hc
    exact step_of_cmd ((nextMove_idle hw).trans (takeCmd_nil hc))
  case inputEmpty =>
    intro s c rest hw hq hc
    exact step_of_cmd ((nextMove_inputSilent hw (takeInput_nil hq)).trans (takeCmd_cons hc))
  case inputSilent =>
    intro s c rest q hw hq hc
    exact step_of_cmd ((nextMove_inputSilent hw (takeInput_cons hq)).trans (takeCmd_cons hc))
  case outputEmpty =>
    intro s c rest hw hq hc
    exact step_of_cmd ((nextMove_outputSilent hw (takeOutput_nil hq)).trans (takeCmd_cons hc))
  case outputSilent =>
    intro s c rest q hw hq hc
    exact step_of_cmd ((nextMove_outputSilent hw (takeOutput_cons hq)).trans (takeCmd_cons hc))

/-- Settles O24: the answered step and the instruction with the answer at hand both complete the same transaction. -/
theorem answeredWaitCompletesTheStep : Obligations.AnsweredWaitCompletesTheStep := by
  unfold Obligations.AnsweredWaitCompletesTheStep
  constructor
  · intro s r q hw hq
    rw [step_of_inputAnswer (nextMove_inputAnswer hw (takeInput_cons hq)),
      execInputValue_answered (s := { s with ioWait := .idle }) hq]
    exact congrArg (andThen · _) (completeInput_setIoWait r .idle _).symm
  · intro s r q hw hq
    rw [step_of_outputAnswer (nextMove_outputAnswer hw (takeOutput_cons hq)),
      execOutputValue_answered (s := { s with ioWait := .idle }) hq]
    exact congrArg (andThen · _) (completeOutput_setIoWait r .idle _).symm
end

section
/-! SUPPORT. What R8 gives of the ranges of a hardware that obeys it. -/

namespace Sys2Proof

/-- PROG_MAX is at most PC_MAX (R8). -/
theorem Params.progMax_le_pcMax {p : Params} (h : p.wf = true) : p.progMax ≤ p.pcMax := by
  simp only [Params.wf, Bool.and_eq_true, decide_eq_true_eq] at h
  omega

/-- The tape the build defaults to fits the hardware (R8). -/
theorem Params.defaultTapeLen_le {p : Params} (h : p.wf = true) : Config.defaultTapeLen ≤ p.tapeMax := by
  simp only [Params.wf, Bool.and_eq_true, decide_eq_true_eq] at h
  unfold Config.defaultTapeLen
  omega

/-- The default program fits the hardware (R8). -/
theorem Params.defaultProgLen_le {p : Params} (h : p.wf = true) : Config.defaultProgLen ≤ p.progMax := by
  simp only [Params.wf, Bool.and_eq_true, decide_eq_true_eq] at h
  unfold Config.defaultProgLen
  omega

end Sys2Proof
end

section
/-! SUPPORT. Updates of the state that keep the invariant, one rule per update. -/

namespace Sys2Proof.Machine

open Sys2Proof

variable {s : State}

theorem State.built_iff : s.built = true ↔ s.engState = .running ∨ s.engState = .halted := by simp [State.built]

theorem BlockInv.answer (h : BlockInv s) (r : Resp) : BlockInv (answer r s) := h.withEnv _

theorem BlockInv.answerStep (h : BlockInv s) : BlockInv (answerStep s) := h.withEnv _

theorem blockInv_resetOf {hw : Params} (h : hw.wf = true) (env : Env) : BlockInv (State.resetOf hw env) where
  hw := h
  tapeForm := rfl
  progForm := rfl
  pcRange := Nat.zero_le _
  tapeLenRange := Nat.zero_le _
  progLenRange := Nat.zero_le _
  mpRange := .inr ⟨rfl, rfl⟩
  tapeBuilt := nofun
  validLen := rfl
  noVm _ := ⟨rfl, rfl, rfl⟩
  running := nofun
  halted := nofun
  codes := nofun
  balanced := nofun
  waitInput := nofun
  waitOutput := nofun
  causeHeld := ⟨nofun, fun _ => rfl⟩
  infoHeld _ := rfl
  stageRange := Nat.zero_le _
  stageCodes := nofun
  stageBadop := nofun
  stageNoBadop _ := rfl
  stageBadopRange := Nat.zero_le _

/-- Fault entry (R260) keeps the invariant where no step waits. -/
theorem BlockInv.raise (h : BlockInv s) (hi : s.ioWait = .idle) {cause : Cause} (hc : cause ≠ .none) (info : Word) :
    BlockInv (raise cause info s) :=
  { h with
    tapeBuilt := nofun
    noVm := nofun
    running := nofun
    halted := nofun
    codes := nofun
    balanced := nofun
    waitInput := fun hw => by simp [hi] at hw
    waitOutput := fun hw => by simp [hi] at hw
    causeHeld := ⟨fun he => absurd he hc, fun he => absurd rfl he⟩
    infoHeld := fun he => absurd rfl he
    stageCodes := nofun
    stageBadop := nofun }

theorem BlockInv.setMp (h : BlockInv s) {m : Nat} (hm : m < s.tapeLen) : BlockInv { s with mp := m } :=
  { h with mpRange := .inl hm }

/-- The end of an I/O transaction, as far as the block goes: IO_WAIT is 0. -/
theorem BlockInv.idle (h : BlockInv s) : BlockInv { s with ioWait := .idle } :=
  { h with waitInput := nofun, waitOutput := nofun }

/-- A jump inside the program before the post-increment. -/
theorem BlockInv.setPc (h : BlockInv s) (hi : s.ioWait = .idle) (hr : s.engState = .running) {j : Nat}
    (hj : j < s.progLen) : BlockInv { s with pc := j } :=
  { h with
    pcRange := by
      have := h.progLenRange
      have := Params.progMax_le_pcMax h.hw
      show j ≤ s.hw.pcMax
      omega
    noVm := fun he => by simp [hr] at he
    running := fun _ => hj
    halted := fun he => by simp [hr] at he
    waitInput := fun hw => by simp [hi] at hw
    waitOutput := fun hw => by simp [hi] at hw }

theorem BlockInv.setCell (h : BlockInv s) (hm : s.mp < s.tapeLen) (v : Byte) : BlockInv (setCell v s) :=
  { h with
    tapeForm := Memory.wf_write _ _ _ h.tapeForm
    tapeBuilt := fun hb => by
      obtain ⟨hlen, hlisted⟩ := h.tapeBuilt hb
      refine ⟨hlen, fun c hc => ?_⟩
      rcases Store.mem_write hc with rfl | hc
      · exact hm
      · exact hlisted c hc }

theorem BlockInv.endInput (h : BlockInv s) (r : InRsp) : BlockInv (endInput r s) := h.idle.withEnv _

theorem BlockInv.endOutput (h : BlockInv s) : BlockInv (endOutput s) := h.idle.withEnv _

theorem BlockInv.waitForInput (h : BlockInv s) (hr : s.engState = .running)
    (hp : s.progRead s.pc = encodeCode .inputValue) : BlockInv { s with ioWait := .input } :=
  { h with waitInput := fun _ => ⟨hr, hp⟩, waitOutput := nofun }

theorem BlockInv.waitForOutput (h : BlockInv s) (hr : s.engState = .running)
    (hp : s.progRead s.pc = encodeCode .outputValue) : BlockInv { s with ioWait := .output } :=
  { h with waitInput := nofun, waitOutput := fun _ => ⟨hr, hp⟩ }

/-! ENG_STATE at the end of a step, for the clauses of the invariant that speak of one ENG_STATE (R40, R156). -/

@[simp] theorem builtState_eq_running_iff {pc n : Nat} : builtState pc n = .running ↔ pc < n := by
  unfold builtState; split <;> simp [*]

@[simp] theorem builtState_eq_halted_iff {pc n : Nat} : builtState pc n = .halted ↔ n ≤ pc := by
  unfold builtState; split <;> simp <;> omega

@[simp] theorem builtState_ne_unbuilt (pc n : Nat) : builtState pc n ≠ .unbuilt := by
  unfold builtState; split <;> exact nofun

@[simp] theorem builtState_ne_loading (pc n : Nat) : builtState pc n ≠ .loading := by
  unfold builtState; split <;> exact nofun

@[simp] theorem builtState_ne_fault (pc n : Nat) : builtState pc n ≠ .fault := by
  unfold builtState; split <;> exact nofun

theorem ne_fault_of_built (hb : s.built = true) : s.engState ≠ .fault := by
  rcases State.built_iff.1 hb with he | he <;> simp [he]

/-- The end of a step (R155, R156) keeps the invariant of a built block. -/
theorem BlockInv.endStep (h : BlockInv s) (hb : s.built = true) (hi : s.ioWait = .idle) : BlockInv (endStep s) :=
  { h with
    pcRange := incPc_le h.pcRange
    tapeBuilt := fun _ => h.tapeBuilt hb
    noVm := by simp
    running := builtState_eq_running_iff.1
    halted := builtState_eq_halted_iff.1
    codes := fun _ => h.codes hb
    balanced := fun _ => h.balanced hb
    waitInput := by simp [hi]
    waitOutput := by simp [hi]
    causeHeld := iff_of_true (h.causeHeld.2 (ne_fault_of_built hb)) (builtState_ne_fault _ _)
    infoHeld := fun _ => h.infoHeld (ne_fault_of_built hb)
    stageCodes := by simp
    stageBadop := by simp }

end Sys2Proof.Machine
end

section
/-! SUPPORT. Every instruction keeps the invariant, and none stops in a built block. -/

namespace Sys2Proof.Machine

open Sys2Proof

variable {s t : State}

theorem mpRight_lt {n m : Nat} (h : m < n) : mpRight n m < n := by unfold mpRight; split <;> omega

theorem mpLeft_lt {n m : Nat} (h : m < n) : mpLeft n m < n := by unfold mpLeft; split <;> omega

theorem fetchCode_of_pc_lt (hpc : s.pc < s.progLen) : fetchCode s = s.progRead s.pc := by
  simp [fetchCode, State.get, hpc]

theorem fetchCode_of_progLen_le (hpc : s.progLen ≤ s.pc) : fetchCode s = encodeCode .noOp := by
  simp [fetchCode, State.get, Nat.not_lt.2 hpc]

/-- A fetched instruction other than NoOp stands in the program at PC (R151). -/
theorem progRead_of_fetched {i : Instr} (hf : decodeCode (fetchCode s) = .ok i) (hn : i ≠ .noOp) :
    s.pc < s.progLen ∧ s.progRead s.pc = encodeCode i := by
  rcases Nat.lt_or_ge s.pc s.progLen with hpc | hpc
  · rw [fetchCode_of_pc_lt hpc] at hf
    exact ⟨hpc, eq_encodeCode_of_decodeCode hf⟩
  · rw [fetchCode_of_progLen_le hpc, Laws.RoundTrip.noOp.1] at hf
    exact absurd (Except.ok.inj hf).symm hn

/-- In a built block of the invariant, PC below the program's end means RUNNING (R40). -/
theorem BlockInv.running_of_pc_lt (h : BlockInv s) (hb : s.built = true) (hpc : s.pc < s.progLen) :
    s.engState = .running := by
  rcases State.built_iff.1 hb with he | he
  · exact he
  · exact absurd (h.halted he) (Nat.not_le.2 hpc)

theorem BlockInv.completeInput {r : InRsp} (h : BlockInv s) (hb : s.built = true)
    (hc : completeInput r s = .next t) : BlockInv t := by
  obtain ⟨hm, ⟨b, -, rfl⟩ | ⟨-, rfl⟩⟩ := completeInput_cases hc
  · exact ((h.endInput r).setCell hm b).endStep hb rfl
  · exact (h.endInput r).endStep hb rfl

theorem BlockInv.completeOutput {r : OutRsp} (h : BlockInv s) (hb : s.built = true)
    (hc : completeOutput r s = .next t) : BlockInv t := by
  obtain ⟨-, rfl⟩ := completeOutput_cases hc
  exact h.endOutput.endStep hb rfl

/-- A jump to a match inside the program keeps the invariant, wherever the match comes from. -/
theorem BlockInv.jumpTaken (h : BlockInv s) (hb : s.built = true) (hi : s.ioWait = .idle) {j : Nat}
    (hpc : s.pc < s.progLen) (hj : j < s.progLen) : BlockInv (Machine.endStep { s with pc := j }) :=
  (h.setPc hi (h.running_of_pc_lt hb hpc) hj).endStep hb hi

/-- The instruction a STEP fetches keeps the invariant. -/
theorem BlockInv.exec {i : Instr} (h : BlockInv s) (hb : s.built = true) (hi : s.ioWait = .idle)
    (hf : decodeCode (fetchCode s) = .ok i) (he : exec i s = .next t) : BlockInv t := by
  have hm := h.onTape hb
  cases i <;> simp only [Machine.exec] at he
  case incrementPointer => cases he; exact (h.setMp (mpRight_lt hm)).endStep hb hi
  case decrementPointer => cases he; exact (h.setMp (mpLeft_lt hm)).endStep hb hi
  case incrementValue =>
    obtain ⟨-, rfl⟩ := execIncrementValue_cases he
    exact (h.setCell hm _).endStep hb hi
  case decrementValue =>
    obtain ⟨-, rfl⟩ := execDecrementValue_cases he
    exact (h.setCell hm _).endStep hb hi
  case outputValue =>
    obtain ⟨hpc, hp⟩ := progRead_of_fetched hf nofun
    obtain ⟨q, ⟨r, -, hc⟩ | rfl⟩ := execOutputValue_cases he
    · exact BlockInv.completeOutput (h.withEnv { s.env with outputs := q }) hb hc
    · exact (h.waitForOutput (h.running_of_pc_lt hb hpc) hp).withEnv _
  case inputValue =>
    obtain ⟨hpc, hp⟩ := progRead_of_fetched hf nofun
    obtain ⟨q, ⟨r, -, hc⟩ | rfl⟩ := execInputValue_cases he
    · exact BlockInv.completeInput (h.withEnv { s.env with inputs := q }) hb hc
    · exact (h.waitForInput (h.running_of_pc_lt hb hpc) hp).withEnv _
  case jumpForward =>
    obtain ⟨-, ⟨-, rfl⟩ | ⟨-, j, hj, rfl⟩ | ⟨-, -, rfl⟩⟩ := execJumpForward_cases he
    · exact h.endStep hb hi
    · obtain ⟨hlt, hend⟩ := matchFwd_bounds hj
      exact h.jumpTaken hb hi (hlt.trans hend) hend
    · exact h.raise hi (cause := .runUnmatchedJF) nofun _
  case jumpBackward =>
    obtain ⟨-, ⟨-, rfl⟩ | ⟨-, j, hj, rfl⟩ | ⟨-, -, rfl⟩⟩ := execJumpBackward_cases he
    · exact h.endStep hb hi
    · obtain ⟨hlt, hend⟩ := matchBwd_bounds hj
      exact h.jumpTaken hb hi hend (hlt.trans hend)
    · exact h.raise hi (cause := .runUnmatchedJB) nofun _
  case noOp => cases he; exact h.endStep hb hi

theorem completeInput_progress (r : InRsp) (hm : s.mp < s.tapeLen) : ∃ t, completeInput r s = .next t := by
  rw [completeInput, withCell_onTape hm]
  split <;> exact ⟨_, rfl⟩

theorem completeOutput_progress (r : OutRsp) (hm : s.mp < s.tapeLen) : ∃ t, completeOutput r s = .next t :=
  ⟨_, withCell_onTape hm _⟩

/-- No instruction stops where MP is on the tape (R88). -/
theorem exec_progress (i : Instr) (hm : s.mp < s.tapeLen) : ∃ t, exec i s = .next t := by
  cases i <;> simp only [exec]
  case incrementPointer => exact ⟨_, rfl⟩
  case decrementPointer => exact ⟨_, rfl⟩
  case incrementValue => exact ⟨_, withCell_onTape hm _⟩
  case decrementValue => exact ⟨_, withCell_onTape hm _⟩
  case outputValue =>
    rcases hq : s.env.outputs with _ | ⟨_ | r, q⟩
    · exact ⟨_, by rw [execOutputValue, takeOutput_nil hq]⟩
    · exact ⟨_, by rw [execOutputValue, takeOutput_cons hq]⟩
    · rw [execOutputValue, takeOutput_cons hq]; exact completeOutput_progress r hm
  case inputValue =>
    rcases hq : s.env.inputs with _ | ⟨_ | r, q⟩
    · exact ⟨_, by rw [execInputValue, takeInput_nil hq]⟩
    · exact ⟨_, by rw [execInputValue, takeInput_cons hq]⟩
    · rw [execInputValue, takeInput_cons hq]; exact completeInput_progress r hm
  case jumpForward => rw [execJumpForward, withCell_onTape hm]; split <;> exact ⟨_, rfl⟩
  case jumpBackward => rw [execJumpBackward, withCell_onTape hm]; split <;> exact ⟨_, rfl⟩
  case noOp => exact ⟨_, rfl⟩

end Sys2Proof.Machine
end

section
/-! SUPPORT. Every host command other than STEP keeps the invariant. -/

namespace Sys2Proof.Machine

open Sys2Proof

variable {s t : State}

/-- Aborting a waiting step writes nothing of the block (R320). -/
theorem abortIo_eq_withEnv (s : State) : abortIo s = { s with env := (abortIo s).env } := by
  unfold abortIo; split <;> rfl

theorem BlockInv.abortIo (h : BlockInv s) : BlockInv (abortIo s) := by
  rw [abortIo_eq_withEnv]; exact h.withEnv _

theorem BlockInv.doReset (h : BlockInv s) : BlockInv (doReset s) := (blockInv_resetOf h.hw _).answer _

theorem BlockInv.doBuildBegin (h : BlockInv s) (mode : BuildMode) (tsValid : Bool) (tsValue : Word) (present : Bool) :
    BlockInv (doBuildBegin mode tsValid tsValue present s) := by
  refine BlockInv.answer ?_ _
  exact
    { h.abortIo with
      pcRange := Nat.zero_le _
      tapeLenRange := Nat.zero_le _
      progLenRange := Nat.zero_le _
      mpRange := .inr ⟨rfl, rfl⟩
      tapeBuilt := nofun
      validLen := rfl
      noVm := fun _ => ⟨rfl, rfl, rfl⟩
      running := nofun
      halted := nofun
      codes := nofun
      balanced := nofun
      waitInput := nofun
      waitOutput := nofun
      causeHeld := ⟨nofun, fun _ => rfl⟩
      infoHeld := fun _ => rfl
      stageRange := Nat.zero_le _
      stageCodes := fun _ _ i hi => absurd hi (Nat.not_lt_zero i)
      stageBadop := nofun
      stageNoBadop := fun _ => rfl
      stageBadopRange := Nat.zero_le _ }

/-! ### Pushes -/

theorem pushTaken_iff : pushTaken s = true ↔ s.engState = .loading ∧ s.stage.mode = .suppliedProgram := by
  simp [pushTaken]

theorem BlockInv.stageOverflow (h : BlockInv s) : BlockInv (stageOverflow s) := { h with }

theorem stageCode_progRead_len (h : BlockInv s) (k : Code) : (stageCode k s).progRead s.stage.len = k :=
  Store.read_write_self _ _ _ h.progForm

theorem stageCode_progRead_of_ne (k : Code) {i : Nat} (hi : i ≠ s.stage.len) :
    (stageCode k s).progRead i = s.progRead i := Store.read_write_of_ne _ _ hi

/-- What is assigned among the staged entries stays so when an assigned code is appended. -/
theorem BlockInv.stageCode_codesAssigned (h : BlockInv s) {k : Code} (hk : codeAssigned k = true)
    (hs : s.codesAssigned s.stage.len) : (stageCode k s).codesAssigned (s.stage.len + 1) := by
  intro i hi
  by_cases he : i = s.stage.len
  · rw [he, stageCode_progRead_len h]; exact hk
  · rw [stageCode_progRead_of_ne k he]; exact hs i (by omega)

/-- Appending a code in LOADING keeps everything the invariant says but what it says of the staged entries. -/
theorem BlockInv.stageCode (h : BlockInv s) (hl : s.engState = .loading) (hlen : s.stage.len < s.hw.progMax) {k : Code}
    (hcodes : s.stage.badopSeen = false → codeAssigned k = true) : BlockInv (stageCode k s) :=
  { h with
    progForm := Store.wf_write _ _ _ h.progForm
    codes := fun hb => by simp [State.built, Machine.stageCode, hl] at hb
    balanced := fun hb => by simp [State.built, Machine.stageCode, hl] at hb
    waitInput := fun hw => by simp [Machine.stageCode, h.idleLoading hl] at hw
    waitOutput := fun hw => by simp [Machine.stageCode, h.idleLoading hl] at hw
    stageRange := hlen
    stageCodes := fun _ hb => h.stageCode_codesAssigned (hcodes hb) (h.stageCodes hl hb)
    stageBadop := fun _ hb => by
      obtain ⟨hlt, hbad, hbelow⟩ := h.stageBadop hl hb
      have hkeep : ∀ i, i ≤ s.stage.badopIndex → (Machine.stageCode k s).progRead i = s.progRead i :=
        fun i hi => stageCode_progRead_of_ne k (by omega)
      refine ⟨Nat.lt_succ_of_lt hlt, ?_, fun i hi => ?_⟩
      · exact (congrArg codeAssigned (hkeep _ (Nat.le_refl _))).trans hbad
      · exact (congrArg codeAssigned (hkeep i (Nat.le_of_lt hi))).trans (hbelow i hi) }

/-- Noting the first reserved code and appending it are one update as far as the invariant goes: the note alone points one
entry past the staged ones. -/
theorem BlockInv.stageFirstBadop (h : BlockInv s) (hl : s.engState = .loading) (hlen : s.stage.len < s.hw.progMax)
    {k : Code} (hk : codeAssigned k = false) (hb : s.stage.badopSeen = false) :
    BlockInv (Machine.stageCode k { s with stage := { s.stage with badopSeen := true, badopIndex := s.stage.len } }) :=
  { h with
    progForm := Store.wf_write _ _ _ h.progForm
    codes := fun hb => by simp [State.built, Machine.stageCode, hl] at hb
    balanced := fun hb => by simp [State.built, Machine.stageCode, hl] at hb
    waitInput := fun hw => by simp [Machine.stageCode, h.idleLoading hl] at hw
    waitOutput := fun hw => by simp [Machine.stageCode, h.idleLoading hl] at hw
    stageRange := hlen
    stageCodes := nofun
    stageBadop := fun _ _ => by
      refine ⟨Nat.lt_succ_self _, ?_, fun i hi => ?_⟩
      · exact (congrArg codeAssigned (stageCode_progRead_len h k)).trans hk
      · exact (congrArg codeAssigned (stageCode_progRead_of_ne k (Nat.ne_of_lt hi))).trans (h.stageCodes hl hb i hi)
    stageNoBadop := nofun
    stageBadopRange := Nat.le_of_lt hlen }

theorem BlockInv.stageInstr (h : BlockInv s) (hl : s.engState = .loading) (hlen : s.stage.len < s.hw.progMax) (k : Code) :
    BlockInv (Machine.stageCode k (noteBadop k s)) := by
  unfold noteBadop
  split
  · next hbad => exact h.stageFirstBadop hl hlen hbad.1 hbad.2
  · next hgood => exact h.stageCode hl hlen fun hb => by simpa [hb] using hgood

theorem BlockInv.doPushChar (h : BlockInv s) (c : CharCode) : BlockInv (doPushChar c s) := by
  unfold Machine.doPushChar
  split
  · next ht =>
    refine BlockInv.answer ?_ _
    split
    · next hlen => exact h.stageCode (pushTaken_iff.1 ht).1 hlen fun _ => codeAssigned_decodeChar c
    · exact h.stageOverflow
  · exact h.answer _

theorem BlockInv.doPushInstr (h : BlockInv s) (k : Code) : BlockInv (doPushInstr k s) := by
  unfold Machine.doPushInstr
  split
  · next ht =>
    refine BlockInv.answer ?_ _
    split
    · next hlen => exact h.stageInstr (pushTaken_iff.1 ht).1 hlen k
    · exact h.stageOverflow
  · exact h.answer _

/-! ### BUILD_COMMIT -/

theorem unmatchedCause_ne_none (k : Code) : unmatchedCause k ≠ .none := by
  unfold unmatchedCause; split <;> exact nofun

theorem unmatchedAt_eq_false_iff {P : Nat → Code} {n i : Nat} :
    unmatchedAt P n i = false ↔ (P i = codeJF → matchFwd P n i ≠ none) ∧ (P i = codeJB → matchBwd P n i ≠ none) := by
  simp [unmatchedAt, Option.isSome_iff_ne_none]

/-- Validate answers OK exactly for a balanced program (R242, R243). -/
theorem validate_eq_none_iff {P : Nat → Code} {n : Nat} : validate P n = none ↔ Balanced P n := by
  have hfirst : validate P n = none ↔ firstUnmatched P n = none := by
    unfold validate; split <;> simp_all
  rw [hfirst, firstUnmatched, List.find?_eq_none]
  simp only [List.mem_range, Bool.not_eq_true, unmatchedAt_eq_false_iff]

theorem validate_cause_ne_none {P : Nat → Code} {n u : Nat} {cause : Cause} (h : validate P n = some (cause, u)) :
    cause ≠ .none := by
  unfold validate at h
  split at h <;> cases h
  exact unmatchedCause_ne_none _

theorem programFault_cause_ne_none {cause : Cause} {info : Word} (h : programFault s = some (cause, info)) :
    cause ≠ .none := by
  unfold programFault at h
  split at h
  · cases h; exact nofun
  split at h
  · cases h; exact nofun
  split at h
  · next hv => cases h; exact validate_cause_ne_none hv
  · cases h

/-- A build that fails its checks names a fault (R255). -/
theorem buildFault_cause_ne_none {cause : Cause} {info : Word} (h : buildFault s = some (cause, info)) :
    cause ≠ .none := by
  unfold buildFault at h
  split at h
  · cases h; exact nofun
  split at h
  · cases h; exact nofun
  split at h
  · cases h
  · exact programFault_cause_ne_none h

/-- A supplied program that passes its checks holds no reserved code and is balanced. -/
theorem programFault_eq_none (h : programFault s = none) :
    s.stage.badopSeen = false ∧ Balanced s.progRead s.stage.len := by
  unfold programFault at h
  split at h
  · cases h
  split at h
  · cases h
  next hb =>
    split at h
    · cases h
    · next hv => exact ⟨by simpa using hb, validate_eq_none_iff.1 hv⟩

/-- A build that passes its checks asks for a tape the hardware holds, and its program, if supplied, passed its own. -/
theorem buildFault_eq_none (h : buildFault s = none) :
    0 < buildTapeLen s ∧ buildTapeLen s ≤ s.hw.tapeMax ∧
      (s.stage.mode = .suppliedProgram → programFault s = none) := by
  unfold buildFault at h
  split at h
  · cases h
  split at h
  · cases h
  next hlen =>
    refine ⟨by omega, by omega, fun hm => ?_⟩
    simpa [hm] using h

/-- A program of NoOps is balanced: it has no bracket. -/
theorem balanced_of_noBracket {P : Nat → Code} {n : Nat} (h : ∀ i, i < n → P i = encodeCode .noOp) : Balanced P n := by
  intro i hi
  rw [h i hi]
  exact ⟨nofun, nofun⟩

/-- What a build that passes its checks makes of the program store (R310). -/
theorem BlockInv.construct_program (h : BlockInv s) (hl : s.engState = .loading) (hf : buildFault s = none) :
    Store.wf (buildProg s) = true ∧ buildProgLen s ≤ s.hw.progMax ∧
      (construct s).codesAssigned (buildProgLen s) ∧ Balanced (construct s).progRead (buildProgLen s) := by
  cases hm : s.stage.mode with
  | defaultProgram =>
    have hread : ∀ i, i < Config.defaultProgLen → (construct s).progRead i = encodeCode .noOp := by
      intro i hi
      simp [State.progRead, construct, buildProg, hm, Store.read_fill _ _ _ h.progForm, hi, encodeCode]
    have hlen : buildProgLen s = Config.defaultProgLen := by simp [buildProgLen, hm]
    rw [hlen]
    refine ⟨?_, Params.defaultProgLen_le h.hw, fun i hi => ?_, balanced_of_noBracket hread⟩
    · simpa [buildProg, hm] using Store.wf_fill _ _ _ h.progForm
    · rw [hread i hi]; rfl
  | suppliedProgram =>
    obtain ⟨hb, hbal⟩ := programFault_eq_none ((buildFault_eq_none hf).2.2 hm)
    have hprog : buildProg s = s.prog := by simp [buildProg, hm]
    have hread : (construct s).progRead = s.progRead := by funext i; simp [State.progRead, construct, hprog]
    have hlen : buildProgLen s = s.stage.len := by simp [buildProgLen, hm]
    rw [hlen, hprog, hread]
    refine ⟨h.progForm, h.stageRange, fun i hi => ?_, hbal⟩
    rw [hread]; exact h.stageCodes hl hb i hi

theorem BlockInv.construct (h : BlockInv s) (hl : s.engState = .loading) (hf : buildFault s = none) :
    BlockInv (construct s) := by
  obtain ⟨htape, htapeMax, -⟩ := buildFault_eq_none hf
  obtain ⟨hform, hlen, hcodes, hbal⟩ := h.construct_program hl hf
  have hidle : (Machine.construct s).ioWait = .idle := h.idleLoading hl
  have heng : (Machine.construct s).engState = builtState 0 (buildProgLen s) := rfl
  have hnf : s.engState ≠ .fault := by simp [hl]
  exact
    { h with
      tapeForm := rfl
      progForm := hform
      pcRange := Nat.zero_le _
      tapeLenRange := htapeMax
      progLenRange := hlen
      mpRange := .inl htape
      tapeBuilt := fun _ => ⟨htape, nofun⟩
      validLen := rfl
      noVm := by simp [heng]
      running := builtState_eq_running_iff.1
      halted := builtState_eq_halted_iff.1
      codes := fun _ => hcodes
      balanced := fun _ => hbal
      waitInput := by simp [hidle]
      waitOutput := by simp [hidle]
      causeHeld := iff_of_true (h.causeHeld.2 hnf) (builtState_ne_fault _ _)
      infoHeld := fun _ => h.infoHeld hnf
      stageCodes := by simp [heng]
      stageBadop := by simp [heng] }

theorem BlockInv.doBuildCommit (h : BlockInv s) : BlockInv (doBuildCommit s) := by
  unfold Machine.doBuildCommit
  split
  · next hl =>
    split
    · next hf => exact (h.raise (h.idleLoading hl) (buildFault_cause_ne_none hf) _).answer _
    · next hf => exact (h.construct hl hf).answer _
  · exact h.answer _

/-! ### Host reads -/

theorem BlockInv.doReadCsr (h : BlockInv s) (addr : Byte) : BlockInv (doReadCsr addr s) := by
  unfold Machine.doReadCsr; split <;> exact h.answer _

theorem BlockInv.doReadTape (h : BlockInv s) (i : Word) : BlockInv (doReadTape i s) := by
  unfold Machine.doReadTape; split <;> exact h.answer _

/-- READ_PROG raises its fault only where no step waits (R101, R321). -/
theorem BlockInv.doReadProg (h : BlockInv s) (i : Nat) (mode : ReadMode) : BlockInv (doReadProg i mode s) := by
  unfold Machine.doReadProg
  split
  · exact h.answer _
  next hw =>
    unfold readProgAt
    split
    · exact h.answer _
    split
    · exact h.answer _
    cases mode with
    | get => exact h.answer _
    | index => exact (h.raise (by simpa using hw) (cause := .bounds) nofun _).answer _

end Sys2Proof.Machine
end

section
/-! SUPPORT. Every transition keeps the invariant, none stops, and so for runs of any length. -/

namespace Sys2Proof.Machine

open Sys2Proof

variable {s t : State}

theorem stepAccepted_iff : stepAccepted s = true ↔ s.built = true ∧ s.ioWait = .idle := by simp [stepAccepted]

theorem BlockInv.doStep (h : BlockInv s) (hd : doStep s = .next t) : BlockInv t := by
  rcases doStep_cases hd with ⟨-, rfl⟩ | ⟨hacc, i, u, hf, he, rfl⟩
  · exact h.answer _
  · obtain ⟨hb, hi⟩ := stepAccepted_iff.1 hacc
    exact (h.exec hb hi hf he).answerStep

theorem BlockInv.doCmd {c : Cmd} (h : BlockInv s) (hd : doCmd c s = .next t) : BlockInv t := by
  cases c with
  | reset => cases hd; exact h.doReset
  | buildBegin mode tsValid tsValue present => cases hd; exact h.doBuildBegin mode tsValid tsValue present
  | progPushChar ch => cases hd; exact h.doPushChar ch
  | progPushInstr k => cases hd; exact h.doPushInstr k
  | buildCommit => cases hd; exact h.doBuildCommit
  | step => exact h.doStep hd
  | readCsr addr => cases hd; exact h.doReadCsr addr
  | readTape i => cases hd; exact h.doReadTape i
  | readProg i mode => cases hd; exact h.doReadProg i mode

/-- A step waits in a RUNNING block only (R43). -/
theorem BlockInv.running_of_waiting (h : BlockInv s) (hw : s.ioWait ≠ .idle) : s.engState = .running := by
  cases hi : s.ioWait with
  | idle => exact absurd hi hw
  | input => exact (h.waitInput hi).1
  | output => exact (h.waitOutput hi).1

theorem BlockInv.built_of_waiting (h : BlockInv s) (hw : s.ioWait ≠ .idle) : s.built = true :=
  State.built_iff.2 (.inl (h.running_of_waiting hw))

theorem SameBlock.built {s0 : State} (h : SameBlock s s0) : s0.built = s.built := by rw [h]; rfl

/-- The invariant is kept by every transition. -/
theorem BlockInv.step (h : BlockInv s) (hs : step s = .next t) : BlockInv t := by
  obtain ⟨s0, hsame, hmove⟩ := step_cases hs
  have h0 := h.sameBlock hsame
  rcases hmove with ⟨c, -, hd⟩ | ⟨r, u, -, hw, hc, rfl⟩ | ⟨r, u, -, hw, hc, rfl⟩
  · exact h0.doCmd hd
  · exact (h0.completeInput (hsame.built.trans (h.built_of_waiting (by simp [hw]))) hc).answerStep
  · exact (h0.completeOutput (hsame.built.trans (h.built_of_waiting (by simp [hw]))) hc).answerStep

/-- A built block fetches an instruction, never a reserved code (R129, R151, R152). -/
theorem BlockInv.fetch_decodes (h : BlockInv s) (hb : s.built = true) : ∃ i, decodeCode (fetchCode s) = .ok i := by
  rcases Nat.lt_or_ge s.pc s.progLen with hpc | hpc
  · rw [fetchCode_of_pc_lt hpc]
    exact decodeCode_of_codeAssigned (h.codes hb s.pc hpc)
  · rw [fetchCode_of_progLen_le hpc]
    exact ⟨.noOp, Laws.RoundTrip.noOp.1⟩

theorem BlockInv.doStep_progress (h : BlockInv s) : ∃ t, Machine.doStep s = .next t := by
  unfold Machine.doStep
  split
  · next hacc =>
    obtain ⟨hb, -⟩ := stepAccepted_iff.1 hacc
    obtain ⟨i, hf⟩ := h.fetch_decodes hb
    obtain ⟨u, hu⟩ := exec_progress i (h.onTape hb)
    exact ⟨Machine.answerStep u, by simp [hf, hu]⟩
  · exact ⟨_, rfl⟩

theorem BlockInv.doCmd_progress (h : BlockInv s) (c : Cmd) : ∃ t, Machine.doCmd c s = .next t := by
  cases c
  case step => exact h.doStep_progress
  all_goals exact ⟨_, rfl⟩

/-- From a state of the invariant every transition answers a next state: neither of the model's stops is reached (log 9,
log 10). -/
theorem BlockInv.step_progress (h : BlockInv s) : ∃ t, Machine.step s = .next t := by
  obtain ⟨hsame, hmove⟩ := nextMove_cases s
  rcases hn : nextMove s with ⟨m, s0⟩
  rw [hn] at hmove
  replace hsame : SameBlock s s0 := by simpa [hn] using hsame
  have h0 := h.sameBlock hsame
  rcases hmove with ⟨c, rfl⟩ | ⟨hw, r, rfl⟩ | ⟨hw, r, rfl⟩
  · rw [step_of_cmd hn]; exact h0.doCmd_progress c
  · have hm := h0.onTape (hsame.built.trans (h.built_of_waiting (by simp [hw])))
    obtain ⟨u, hu⟩ := completeInput_progress r hm
    exact ⟨Machine.answerStep u, by rw [step_of_inputAnswer hn, hu, andThen_next]⟩
  · have hm := h0.onTape (hsame.built.trans (h.built_of_waiting (by simp [hw])))
    obtain ⟨u, hu⟩ := completeOutput_progress r hm
    exact ⟨Machine.answerStep u, by rw [step_of_outputAnswer hn, hu, andThen_next]⟩

theorem BlockInv.runSteps {n : Nat} (h : BlockInv s) (hr : runSteps n s = .next t) : BlockInv t := by
  induction n generalizing s with
  | zero => cases hr; exact h
  | succ n ih =>
    obtain ⟨u, hu, hr⟩ := andThen_eq_next (by simpa using hr)
    exact ih (h.step hu) hr

end Sys2Proof.Machine
end

section
/-! SUPPORT. Runs under fuel from a state of the invariant (R16), and the statement about them. -/

namespace Sys2Proof.Machine

open Sys2Proof

variable {s : State}

theorem BlockInv.untilStep_progress (h : BlockInv s) (n : Nat) : ∃ t, untilStep n s = .next t := by
  induction n generalizing s with
  | zero => exact ⟨s, rfl⟩
  | succ n ih =>
    rw [untilStep]
    split
    · exact ⟨s, rfl⟩
    · obtain ⟨u, hu⟩ := h.step_progress
      obtain ⟨t, ht⟩ := ih (h.step hu)
      exact ⟨t, by rw [hu, andThen_next, ht]⟩

/-- From a state of the invariant the block comes to where the host is about to STEP, without a STEP on the way. -/
theorem BlockInv.reachesStep (h : BlockInv s) :
    ∃ k t, untilStep s.env.pending s = .next t ∧ Machine.runSteps k s = .next t ∧ countSteps k s = 0 ∧
      t.nextCmd = some .step := by
  obtain ⟨t, ht⟩ := h.untilStep_progress s.env.pending
  obtain ⟨k, hr, h0, hn⟩ := untilStep_pending ht
  exact ⟨k, t, ht, hr, h0, hn⟩

/-- A run under `n` units of fuel is a run with `n` host STEPs, by induction on the fuel: the transitions up to the first
STEP, that STEP, and the rest. -/
theorem BlockInv.runFuel_counts (h : BlockInv s) (n : Nat) :
    ∃ k t, runFuel n s = .next t ∧ Machine.runSteps k s = .next t ∧ countSteps k s = n ∧ t.nextCmd = some .step := by
  induction n generalizing s with
  | zero => exact h.reachesStep
  | succ n ih =>
    obtain ⟨a, u, hu, hrun, hzero, hnext⟩ := h.reachesStep
    have hinv := h.runSteps hrun
    obtain ⟨v, hv⟩ := hinv.step_progress
    obtain ⟨b, t, hfuel, hrun', hcount, hend⟩ := ih (hinv.step hv)
    refine ⟨a + (b + 1), t, ?_, ?_, ?_, hend⟩
    · rw [runFuel, hu, andThen_next, hv, andThen_next, hfuel]
    · rw [runSteps_add, hrun, andThen_next, runSteps_succ, hv, andThen_next, hrun']
    · rw [countSteps_add hrun, hzero, countSteps_succ hv, if_pos hnext, hcount]
      omega

/-! ### A program that never halts -/

/-- `[]` at its `]` on one cell of value 1, on the smallest hardware R8 allows, with a host that only steps: each STEP jumps
back to the `[` and lands on the `]` again. -/
def spinning (resp : Option Resp) : State :=
  { State.resetOf { tapeMax := 30000, progMax := 10, pcW := 4, mpW := 15, inputAcceptMax := 128 }
      { Env.empty with resp := resp } with
    engState := .running, pc := 1, tapeLen := 1, tape := [(0, 1#8)], prog := [(0, codeJF), (1, codeJB)],
    progValid := true, progLen := 2 }

theorem spinning_step (resp : Option Resp) : step (spinning resp) = .next (spinning (some .done)) := rfl

theorem spinning_runFuel (n : Nat) (resp : Option Resp) : ∃ resp', runFuel n (spinning resp) = .next (spinning resp') := by
  have huntil : ∀ resp, untilStep (spinning resp).env.pending (spinning resp) = .next (spinning resp) := fun _ => rfl
  induction n generalizing resp with
  | zero => exact ⟨resp, huntil resp⟩
  | succ n ih =>
    rw [runFuel, huntil, andThen_next, spinning_step, andThen_next]
    exact ih _

theorem blockInv_spinning : BlockInv (spinning none) where
  hw := by decide
  tapeForm := rfl
  progForm := rfl
  pcRange := by decide
  tapeLenRange := by decide
  progLenRange := by decide
  mpRange := by decide
  tapeBuilt := by decide
  validLen := rfl
  noVm := nofun
  running := by decide
  halted := nofun
  codes := by unfold State.codesAssigned; decide
  balanced := by unfold State.balanced; decide
  waitInput := nofun
  waitOutput := nofun
  causeHeld := by decide
  infoHeld _ := rfl
  stageRange := by decide
  stageCodes := nofun
  stageBadop := nofun
  stageNoBadop _ := rfl
  stageBadopRange := by decide

end Sys2Proof.Machine

open Sys2Proof Sys2Proof.Machine

/-- Settles O60: by induction on the fuel from the invariant, and with `[]` on a cell that is not 0 as the program that never
halts. -/
theorem fuelCountsHostSteps : Obligations.FuelCountsHostSteps := by
  unfold Obligations.FuelCountsHostSteps
  refine ⟨fun s n h => h.runFuel_counts n, spinning none, blockInv_spinning, fun n t ht => ?_⟩
  obtain ⟨resp, hrun⟩ := spinning_runFuel n none
  rw [hrun] at ht
  cases ht
  rfl
end

section
/-! SUPPORT. The registers that a transition's queues leave alone, and the statements about RESET and the invariant. -/

namespace Sys2Proof.Machine

open Sys2Proof

variable {s s0 : State}

/-- Taking the next move changes the agents' queues alone. -/
theorem sameBlock_of_nextMove {m : Move} (h : nextMove s = (m, s0)) : SameBlock s s0 := by
  simpa [h] using (nextMove_cases s).1

theorem SameBlock.hw (h : SameBlock s s0) : s0.hw = s.hw := by rw [h]
theorem SameBlock.engState (h : SameBlock s s0) : s0.engState = s.engState := by rw [h]
theorem SameBlock.pc (h : SameBlock s s0) : s0.pc = s.pc := by rw [h]
theorem SameBlock.ioWait (h : SameBlock s s0) : s0.ioWait = s.ioWait := by rw [h]

end Sys2Proof.Machine

namespace Sys2Proof

/-- The hardware of `State.reset` obeys R8 (log 1). -/
theorem Config.largest_wf : Config.largest.wf = true := by decide

end Sys2Proof

open Sys2Proof Sys2Proof.Machine

/-- Settles O54: a step is a host command or the completion of a waiting step, and each keeps the invariant. -/
theorem everyStepKeepsTheInvariant : Obligations.EveryStepKeepsTheInvariant := by
  unfold Obligations.EveryStepKeepsTheInvariant
  exact fun _ _ h hs => h.step hs

/-- Settles O53: the reset state of a hardware that obeys R8 has nothing built, held or staged, so each clause is
about nothing or about zeros; power-on is the case of the largest hardware. -/
theorem invariantHoldsAtReset : Obligations.InvariantHoldsAtReset := by
  unfold Obligations.InvariantHoldsAtReset
  exact ⟨blockInv_resetOf Config.largest_wf _, fun _ env hw => blockInv_resetOf hw env⟩

/-- Settles O41: RESET answers with the reset state of the hardware it finds. -/
theorem resetValues : Obligations.ResetValues := by
  unfold Obligations.ResetValues
  refine ⟨fun s s0 hn => ⟨doReset s0, step_of_cmd hn, rfl, ?hw, ?_⟩, ?_, rfl⟩
  case hw => exact (sameBlock_of_nextMove hn).hw
  · exact ⟨rfl, rfl, rfl, rfl, rfl, rfl, rfl, rfl, rfl, rfl⟩
  · exact ⟨rfl, rfl, rfl, rfl, rfl, rfl, rfl, rfl, rfl, rfl⟩
end

section
/-! SUPPORT. The words that READ_CSR answers, as numbers (R48, R49), and the two statements about them. -/

namespace Sys2Proof

/-- TAPE_MAX fits a register (R8). -/
theorem Params.tapeMax_lt {p : Params} (h : p.wf = true) : p.tapeMax < 2 ^ 32 := by
  simp only [Params.wf, Bool.and_eq_true, decide_eq_true_eq] at h
  omega

/-- PROG_MAX fits the 31 bits below PROG_VALID in the PROG_LEN register (R8, R49). -/
theorem Params.progMax_lt {p : Params} (h : p.wf = true) : p.progMax < 2 ^ 31 := by
  simp only [Params.wf, Bool.and_eq_true, decide_eq_true_eq] at h
  omega

/-- PC_MAX fits a register, since PC_W is at most 32 (R8). -/
theorem Params.pcMax_lt {p : Params} (h : p.wf = true) : p.pcMax < 2 ^ 32 := by
  simp only [Params.wf, Bool.and_eq_true, decide_eq_true_eq] at h
  have hpow : 2 ^ p.pcW ≤ 2 ^ 32 := Nat.pow_le_pow_right (by omega) (by omega)
  unfold Params.pcMax
  omega

theorem Params.inputAcceptMax_lt {p : Params} (h : p.wf = true) : p.inputAcceptMax < 2 ^ 32 := by
  simp only [Params.wf, Bool.and_eq_true, Bool.or_eq_true, decide_eq_true_eq] at h
  omega

namespace Machine

variable {s : State}

/-- READ_CSR answers the word of the map, or INVALID with 0 where the map has none. -/
theorem doReadCsr_eq (a : Byte) (s : State) :
    doReadCsr a s = answer (.csr (if (csrWord s a).isSome then .ok else .invalid) ((csrWord s a).getD 0#32)) s := by
  unfold doReadCsr
  cases csrWord s a <;> rfl

/-- The map has the addresses 0x00 to 0x0F (R49). -/
theorem csrWord_eq_none_iff {a : Byte} : csrWord s a = none ↔ 16 ≤ a.toNat := by
  unfold csrWord
  split
  case h_17 =>
    simp only [imp_false] at *
    simp only [true_iff]
    omega
  all_goals
    simp only [reduceCtorEq, false_iff]
    omega

theorem csrWord_isSome_iff {a : Byte} : (csrWord s a).isSome = true ↔ a.toNat < 16 := by
  rw [Option.isSome_iff_ne_none, ne_eq, csrWord_eq_none_iff, not_le]

/-! ### Fields of a register -/

theorem zext32_toNat {n : Nat} (h : n < 2 ^ 32) : (zext32 n).toNat = n := Nat.mod_eq_of_lt h

/-- PROG_VALID stands above the 31 bits of PROG_LEN (R49). -/
theorem validBit_or_toNat (b : Bool) {n : Nat} (h : n < 2 ^ 31) :
    ((if b then 0x80000000#32 else 0#32) ||| zext32 n).toNat = n + if b then 2 ^ 31 else 0 := by
  rw [BitVec.toNat_or, zext32_toNat (by omega)]
  cases b with
  | false => simp
  | true =>
    have hor := Nat.two_pow_add_eq_or_of_lt h 1
    simpa [Nat.add_comm] using hor.symm

/-- ENG_STATE and IO_WAIT in one register (R49). -/
theorem stateWord_toNat (e : EngState) (w : IoWait) : (zext32 (e.code + w.code * 8)).toNat = e.code + 8 * w.code := by
  cases e <;> cases w <;> rfl

theorem causeWord_toNat (c : Cause) : (zext32 c.code).toNat = c.code := by cases c <;> rfl

theorem flagBits_toNat : ∀ b0 b1 b2 b3 b4 : Bool,
    (flagBit b0 0 ||| flagBit b1 1 ||| flagBit b2 2 ||| flagBit b3 3 ||| flagBit b4 4).toNat =
      (if b0 then 1 else 0) + (if b1 then 2 else 0) + (if b2 then 4 else 0) + (if b3 then 8 else 0) +
        (if b4 then 16 else 0) := by decide

/-- The five flags of the staging registers, each at its place (R49). -/
theorem buildStageWord_toNat (st : Stage) :
    (buildStageWord st).toNat = (if st.mode = .suppliedProgram then 1 else 0) + (if st.tsValid then 2 else 0) +
      (if st.inputPresent then 4 else 0) + (if st.overflow then 8 else 0) + (if st.badopSeen then 16 else 0) := by
  simp only [buildStageWord, flagBits_toNat, decide_eq_true_eq]

/-! ### CUR_INSTR (R51) -/

/-- A code with the bit above it that says it is one: as a number, in its low bits, and in that bit. -/
theorem curInstrBits (k : Code) :
    (0x10#32 ||| k.setWidth 32).toNat = k.toNat + 16 ∧ (0x10#32 ||| k.setWidth 32).setWidth 4 = k ∧
      (0x10#32 ||| k.setWidth 32).getLsbD 4 = true := by
  revert k; decide

/-- In RUNNING the word holds the code the next STEP fetches. -/
theorem BlockInv.curInstrWord_running (h : BlockInv s) (hr : s.engState = .running) :
    curInstrWord s = 0x10#32 ||| (fetchCode s).setWidth 32 := by
  have hpc := h.running hr
  simp [curInstrWord, State.built, hr, State.get, hpc, fetchCode_of_pc_lt hpc]

/-- Outside RUNNING the block is not built, or PC is past the program's end. -/
theorem BlockInv.curInstrWord_notRunning (h : BlockInv s) (hr : s.engState ≠ .running) : curInstrWord s = 0#32 := by
  unfold curInstrWord
  split
  · next hb =>
    have hhalted := (State.built_iff.1 hb).resolve_left hr
    simp [State.get, Nat.not_lt.2 (h.halted hhalted)]
  · rfl

/-! ### The ranges of the invariant, as far as a register needs them -/

theorem BlockInv.pc_lt_word (h : BlockInv s) : s.pc < 2 ^ 32 := h.pcRange.trans_lt (Params.pcMax_lt h.hw)

theorem BlockInv.tapeLen_lt_word (h : BlockInv s) : s.tapeLen < 2 ^ 32 := h.tapeLenRange.trans_lt (Params.tapeMax_lt h.hw)

theorem BlockInv.mp_lt_word (h : BlockInv s) : s.mp < 2 ^ 32 := by
  have hlen := h.tapeLen_lt_word
  rcases h.mpRange with hm | ⟨hm, -⟩ <;> omega

/-- A number that PROG_MAX bounds fits a register. -/
theorem BlockInv.lt_word_of_le_progMax (h : BlockInv s) {n : Nat} (hn : n ≤ s.hw.progMax) : n < 2 ^ 32 := by
  have hmax := Params.progMax_lt h.hw
  omega

/-- A block that is neither built nor in FAULT holds no VM (R39). -/
theorem BlockInv.noVm_of_notBuilt (h : BlockInv s) (hb : s.built ≠ true) (hf : s.engState ≠ .fault) :
    s.pc = 0 ∧ s.tapeLen = 0 ∧ s.progLen = 0 := by
  refine h.noVm ?_
  cases he : s.engState <;> simp_all [State.built]

theorem cellWord_toNat (s : State) :
    (if s.built then s.cell.setWidth 32 else 0#32 : Word).toNat =
      if s.built then (Memory.read s.tape s.mp).toNat else 0 := by
  split
  · exact BitVec.toNat_setWidth_of_le (by omega)
  · rfl

theorem BlockInv.tapeLenWord_toNat (h : BlockInv s) :
    (if s.built then zext32 s.tapeLen else 0#32).toNat = if s.built then s.tapeLen else 0 := by
  split
  · exact zext32_toNat h.tapeLen_lt_word
  · rfl

theorem BlockInv.progLenWord_toNat (h : BlockInv s) (hf : s.engState ≠ .fault) :
    (progLenWord s).toNat = s.progLen + if s.progValid then 2 ^ 31 else 0 := by
  unfold progLenWord
  split
  · exact validBit_or_toNat _ (h.progLenRange.trans_lt (Params.progMax_lt h.hw))
  · next hb =>
    obtain ⟨-, -, hlen⟩ := h.noVm_of_notBuilt hb hf
    simp [h.validLen, hlen]

/-- Outside FAULT, RUNNING is exactly PC below the program's end (R35, R40). -/
theorem BlockInv.running_iff_pc_lt (h : BlockInv s) (hf : s.engState ≠ .fault) :
    s.engState = .running ↔ s.pc < s.progLen := by
  refine ⟨h.running, fun hpc => ?_⟩
  by_cases hb : s.built = true
  · exact h.running_of_pc_lt hb hpc
  · obtain ⟨-, -, hlen⟩ := h.noVm_of_notBuilt hb hf
    omega

theorem BlockInv.curInstrWord_toNat (h : BlockInv s) (hf : s.engState ≠ .fault) :
    (curInstrWord s).toNat = if s.pc < s.progLen then (s.progRead s.pc).toNat + 16 else 0 := by
  split
  · next hpc =>
    rw [h.curInstrWord_running ((h.running_iff_pc_lt hf).2 hpc), fetchCode_of_pc_lt hpc]
    exact (curInstrBits _).1
  · next hpc =>
    rw [h.curInstrWord_notRunning (mt (h.running_iff_pc_lt hf).1 hpc)]
    rfl

end Machine
end Sys2Proof

open Sys2Proof Sys2Proof.Machine

/-- Settles O48: by whether the block is RUNNING; outside it the whole word is 0. -/
theorem curInstrShowsTheNextInstruction : Obligations.CurInstrShowsTheNextInstruction := by
  unfold Obligations.CurInstrShowsTheNextInstruction
  intro s h
  by_cases hr : s.engState = .running
  · obtain ⟨-, hlow, hbit⟩ := curInstrBits (fetchCode s)
    rw [h.curInstrWord_running hr]
    exact ⟨iff_of_true hbit hr, fun _ => hlow⟩
  · rw [h.curInstrWord_notRunning hr]
    exact ⟨iff_of_false (by decide) hr, fun hr' => absurd hr' hr⟩

/-- Settles O47: READ_CSR answers what `csrWord` holds, and each register fits its word by the ranges of the invariant. -/
theorem registerMap : Obligations.RegisterMap := by
  unfold Obligations.RegisterMap
  intro s s0 a hn h
  refine ⟨_, _, (step_of_cmd hn).trans (congrArg Host.Outcome.next (doReadCsr_eq a s0)), ?inMap, ?notInMap, ?state, ?cause,
    ?info, ?pc, ?mp, ?cell, ?tapeLen, ?progLen, ?curInstr, ?progMax, ?tapeMax, ?acceptMax, ?stage, ?stageLen, ?tsValue,
    ?badop⟩
  case inMap => exact fun ha => if_pos (csrWord_isSome_iff.2 ha)
  case notInMap => exact fun ha => by simp [csrWord_eq_none_iff.2 ha]
  case state => rintro rfl; exact stateWord_toNat _ _
  case cause => rintro rfl; exact causeWord_toNat _
  case info => rintro rfl; rfl
  case pc => rintro rfl; exact zext32_toNat h.pc_lt_word
  case mp => rintro rfl; exact zext32_toNat h.mp_lt_word
  case cell => rintro rfl; exact cellWord_toNat s0
  case tapeLen => rintro rfl; exact h.tapeLenWord_toNat
  case progLen => rintro rfl hf; exact h.progLenWord_toNat hf
  case curInstr => rintro rfl hf; exact h.curInstrWord_toNat hf
  case progMax => rintro rfl; exact zext32_toNat (h.lt_word_of_le_progMax le_rfl)
  case tapeMax => rintro rfl; exact zext32_toNat (Params.tapeMax_lt h.hw)
  case acceptMax => rintro rfl; exact zext32_toNat (Params.inputAcceptMax_lt h.hw)
  case stage => rintro rfl; exact buildStageWord_toNat _
  case stageLen => rintro rfl; exact zext32_toNat (h.lt_word_of_le_progMax h.stageRange)
  case tsValue => rintro rfl; rfl
  case badop => rintro rfl; exact zext32_toNat (h.lt_word_of_le_progMax h.stageBadopRange)
end

section
/-! SUPPORT. What each host command does to a HALTED block (R41), and the statement about it. -/

namespace Sys2Proof.Machine

open Sys2Proof

variable {s t : State}

/-! ### Commands that a block which is not in LOADING ignores (R103, R104, R307) -/

theorem pushTaken_eq_false (hl : s.engState ≠ .loading) : pushTaken s = false := by simp [pushTaken, hl]

theorem doPushChar_ignored (hl : s.engState ≠ .loading) (c : CharCode) : doPushChar c s = answer .ignored s := by
  simp [doPushChar, pushTaken_eq_false hl]

theorem doPushInstr_ignored (hl : s.engState ≠ .loading) (k : Code) : doPushInstr k s = answer .ignored s := by
  simp [doPushInstr, pushTaken_eq_false hl]

theorem doBuildCommit_ignored (hl : s.engState ≠ .loading) : doBuildCommit s = answer .ignored s := if_neg hl

/-! ### Host reads -/

theorem doReadTape_answers (i : Word) (s : State) : ∃ r, doReadTape i s = answer r s := by
  unfold doReadTape; split <;> exact ⟨_, rfl⟩

/-- READ_PROG answers and changes nothing, but for the BOUNDS fault in INDEX mode (R101). -/
theorem doReadProg_cases (i : Nat) (mode : ReadMode) (s : State) :
    (∃ r, doReadProg i mode s = answer r s) ∨
      (mode = .index ∧ ∃ info, doReadProg i mode s = answer (.faulted .bounds) (raise .bounds info s)) := by
  unfold doReadProg readProgAt
  split
  · exact .inl ⟨_, rfl⟩
  split
  · exact .inl ⟨_, rfl⟩
  split
  · exact .inl ⟨_, rfl⟩
  cases mode with
  | get => exact .inl ⟨_, rfl⟩
  | index => exact .inr ⟨rfl, _, rfl⟩

/-! ### The HALTED block -/

theorem le_incPc {hw : Params} {pc : Nat} (h : pc ≤ hw.pcMax) : pc ≤ incPc hw pc := by
  unfold incPc; split <;> omega

theorem BlockInv.idle_of_halted (h : BlockInv s) (he : s.engState = .halted) : s.ioWait = .idle := by
  by_contra hw
  have hr := h.running_of_waiting hw
  simp [he] at hr

/-- STEP in a HALTED block is a NoOp (R151, R157). -/
theorem BlockInv.doStep_halted (h : BlockInv s) (he : s.engState = .halted) :
    Machine.doStep s = .next (Machine.answerStep (Machine.endStep s)) := by
  have hacc : stepAccepted s = true :=
    stepAccepted_iff.2 ⟨State.built_iff.2 (.inr he), h.idle_of_halted he⟩
  simp [Machine.doStep, hacc, fetchCode_of_progLen_le (h.halted he), Laws.RoundTrip.noOp.1, Machine.exec, execNoOp]

/-- The post-increment never takes PC of a HALTED block below the program's end (R155, R156). -/
theorem BlockInv.endStep_halted (h : BlockInv s) (he : s.engState = .halted) :
    (Machine.endStep s).engState = .halted ∧ s.pc ≤ (Machine.endStep s).pc := by
  have hpc := le_incPc h.pcRange
  exact ⟨builtState_eq_halted_iff.2 ((h.halted he).trans hpc), hpc⟩

/-- A command that discards the VM leaves the block UNBUILT or LOADING (R300, R305). -/
theorem doCmd_discardsVm {c : Cmd} (hc : c.discardsVm = true) (hd : doCmd c s = .next t) :
    t.engState = .unbuilt ∨ t.engState = .loading := by
  cases c with
  | reset => cases hd; exact .inl rfl
  | buildBegin mode tsValid tsValue present => cases hd; exact .inr rfl
  | _ => cases hc

/-- Everything another command can do to a HALTED block: give an answer, let PC go on, or raise the BOUNDS fault of READ_PROG
in INDEX mode (log 16). -/
theorem BlockInv.doCmd_halted {c : Cmd} (h : BlockInv s) (he : s.engState = .halted) (hc : c.discardsVm = false)
    (hd : Machine.doCmd c s = .next t) :
    (∃ r, t = Machine.answer r s) ∨ (c = .step ∧ t = Machine.answerStep (Machine.endStep s)) ∨
      (∃ i info, c = .readProg i .index ∧ t = Machine.answer (.faulted .bounds) (Machine.raise .bounds info s)) := by
  have hl : s.engState ≠ .loading := by simp [he]
  cases c with
  | reset => cases hc
  | buildBegin mode tsValid tsValue present => cases hc
  | progPushChar ch => cases hd; exact .inl ⟨_, doPushChar_ignored hl ch⟩
  | progPushInstr k => cases hd; exact .inl ⟨_, doPushInstr_ignored hl k⟩
  | buildCommit => cases hd; exact .inl ⟨_, doBuildCommit_ignored hl⟩
  | step => exact .inr (.inl ⟨rfl, Host.Outcome.next.inj (hd.symm.trans (h.doStep_halted he))⟩)
  | readCsr addr => cases hd; exact .inl ⟨_, doReadCsr_eq addr s⟩
  | readTape i => cases hd; exact .inl (doReadTape_answers i s)
  | readProg i mode =>
    cases hd
    rcases doReadProg_cases i mode s with hr | ⟨rfl, info, hr⟩
    · exact .inl hr
    · exact .inr (.inr ⟨i, info, rfl, hr⟩)

/-- So a HALTED block stays HALTED with no lower PC, or it is in FAULT with BOUNDS. -/
theorem BlockInv.halted_or_bounds {c : Cmd} (h : BlockInv s) (he : s.engState = .halted) (hc : c.discardsVm = false)
    (hd : Machine.doCmd c s = .next t) :
    s.pc ≤ t.pc ∧
      (t.engState = .halted ∨ (∃ i, c = .readProg i .index) ∧ t.engState = .fault ∧ t.faultCause = .bounds) := by
  rcases h.doCmd_halted he hc hd with ⟨r, rfl⟩ | ⟨-, rfl⟩ | ⟨i, info, rfl, rfl⟩
  · exact ⟨le_rfl, .inl he⟩
  · obtain ⟨hhalted, hpc⟩ := h.endStep_halted he
    exact ⟨hpc, .inl hhalted⟩
  · exact ⟨le_rfl, .inr ⟨⟨i, rfl⟩, rfl, rfl⟩⟩

/-- The step from a HALTED block handles a host command. -/
theorem BlockInv.step_halted (h : BlockInv s) (he : s.engState = .halted) (hs : Machine.step s = .next t) :
    ∃ c s0, nextMove s = (.cmd c, s0) ∧ Machine.doCmd c s0 = .next t := by
  have hidle := h.idle_of_halted he
  obtain ⟨s0, -, ⟨c, hn, hd⟩ | ⟨r, u, -, hw, -⟩ | ⟨r, u, -, hw, -⟩⟩ := step_cases hs
  · exact ⟨c, s0, hn, hd⟩
  · simp [hidle] at hw
  · simp [hidle] at hw

theorem nextCmd_of_nextMove {s0 : State} {c : Cmd} (h : nextMove s = (.cmd c, s0)) : s.nextCmd = some c := by
  simp [State.nextCmd, h]

end Sys2Proof.Machine

open Sys2Proof Sys2Proof.Machine

/-- Settles O58: the step is a host command, which either discards the VM or keeps the block from RUNNING again. -/
theorem haltedIsTerminal : Obligations.HaltedIsTerminal := by
  unfold Obligations.HaltedIsTerminal
  intro s t h he hs
  obtain ⟨c, s0, hn, hd⟩ := h.step_halted he hs
  have hsame := sameBlock_of_nextMove hn
  have h0 := h.sameBlock hsame
  have he0 := hsame.engState.trans he
  constructor
  · cases hc : c.discardsVm with
    | true => rcases doCmd_discardsVm hc hd with ht | ht <;> simp [ht]
    | false =>
      obtain ⟨-, ht | ⟨-, ht, -⟩⟩ := h0.halted_or_bounds he0 hc hd <;> simp [ht]
  · intro c' hc' hkeep
    obtain rfl : c = c' := by simpa [nextCmd_of_nextMove hn] using hc'
    rw [← hsame.pc]
    exact h0.halted_or_bounds he0 hkeep hd
end

section
/-! SUPPORT. Pushes into a SUPPLIED build that has room for them, and the statement about a string of them (R83, R96, R103). -/

namespace Sys2Proof

/-- The stored code of a kind decodes to the kind (R124). -/
theorem decodeCode_encodeCode (i : Instr) : decodeCode (encodeCode i) = .ok i := by cases i <;> rfl

/-- The character of a kind is loaded as the code of the kind (R121, R125). -/
theorem decodeChar_encodeChar (i : Instr) : decodeChar (encodeChar i) = encodeCode i := by cases i <;> rfl

namespace Machine

variable {s t : State}

theorem doPushChar_room (hl : s.engState = .loading) (hm : s.stage.mode = .suppliedProgram)
    (hlen : s.stage.len < s.hw.progMax) (c : CharCode) :
    doPushChar c s = answer .ok (stageCode (decodeChar c) s) := by
  simp [doPushChar, pushTaken_iff.2 ⟨hl, hm⟩, hlen]

/-- The entry a push writes reads back as the code pushed. -/
theorem stageCode_progRead_self (hp : Store.wf s.prog = true) (k : Code) : (stageCode k s).progRead s.stage.len = k :=
  Store.read_write_self _ _ _ hp

/-! ### A string of pushes -/

/-- From `s` to `t` the instructions `is` were staged, in order, behind what was staged before. -/
structure Staged (is : List Instr) (s t : State) : Prop where
  len : t.stage.len = s.stage.len + is.length
  overflow : t.stage.overflow = s.stage.overflow
  earlier : ∀ k, k < s.stage.len → t.progRead k = s.progRead k
  decodes : ∀ k i, is[k]? = some i → decodeCode (t.progRead (s.stage.len + k)) = .ok i

theorem Staged.nil (e : Env) : Staged [] s { s with env := e } :=
  ⟨rfl, rfl, fun _ _ => rfl, nofun⟩

/-- One instruction staged and then the others: the first entry stands below the others' places, which leave it alone. -/
theorem Staged.cons {is : List Instr} {i : Instr} {e : Env} (hp : Store.wf s.prog = true)
    (h : Staged is (answer .ok (stageCode (encodeCode i) { s with env := e })) t) : Staged (i :: is) s t where
  len := h.len.trans (Nat.add_right_comm s.stage.len 1 is.length)
  overflow := h.overflow
  earlier k hk := (h.earlier k (Nat.lt_succ_of_lt hk)).trans (stageCode_progRead_of_ne _ (Nat.ne_of_lt hk))
  decodes k j hj := by
    cases k with
    | zero =>
      obtain rfl : i = j := by simpa using hj
      have hread : t.progRead s.stage.len = encodeCode i :=
        (h.earlier _ (Nat.lt_succ_self _)).trans (stageCode_progRead_self (s := { s with env := e }) hp _)
      rw [Nat.add_zero, hread]
      exact decodeCode_encodeCode i
    | succ k =>
      rw [← Nat.succ_add_eq_add_succ]
      exact h.decodes k j (by simpa using hj)

/-- The host's next command, pushing a character into a build with room, stages the instruction's code. -/
theorem step_pushChar_room {i : Instr} {rest : List Cmd} (hi : s.ioWait = .idle) (hl : s.engState = .loading)
    (hm : s.stage.mode = .suppliedProgram) (hlen : s.stage.len < s.hw.progMax)
    (hc : s.env.cmds = .progPushChar (encodeChar i) :: rest) :
    step s = .next (answer .ok (stageCode (encodeCode i) { s with env := { s.env with cmds := rest } })) := by
  rw [step_of_cmd ((nextMove_idle hi).trans (takeCmd_cons hc)), ← decodeChar_encodeChar i]
  exact congrArg Host.Outcome.next (doPushChar_room (s := { s with env := { s.env with cmds := rest } }) hl hm hlen _)

/-- The pushes of a string stage its instructions, by induction on the string: each push leaves room for the rest. -/
theorem runSteps_pushString (is : List Instr) {rest : List Cmd} (hi : s.ioWait = .idle) (hl : s.engState = .loading)
    (hm : s.stage.mode = .suppliedProgram) (hp : Store.wf s.prog = true)
    (hlen : s.stage.len + is.length ≤ s.hw.progMax)
    (hc : s.env.cmds = is.map (fun i => Cmd.progPushChar (encodeChar i)) ++ rest) :
    ∃ t, runSteps is.length s = .next t ∧ t.env.cmds = rest ∧ Staged is s t := by
  induction is generalizing s with
  | nil => exact ⟨s, rfl, hc, Staged.nil s.env⟩
  | cons i is ih =>
    have hlen' : s.stage.len + 1 + is.length ≤ s.hw.progMax := by simp only [List.length_cons] at hlen; omega
    have hpush := step_pushChar_room hi hl hm (by omega) hc
    obtain ⟨t, hrun, hrest, hstaged⟩ := ih
      (s := answer .ok (stageCode (encodeCode i) { s with env := { s.env with cmds := is.map _ ++ rest } })) hi hl hm
      (Store.wf_write _ _ _ hp) hlen' rfl
    exact ⟨t, (congrArg (andThen · (runSteps is.length)) hpush).trans hrun, hrest, hstaged.cons hp⟩

end Machine
end Sys2Proof

open Sys2Proof Sys2Proof.Machine

/-- Settles O4: by induction on the string, one push to an instruction. -/
theorem loadingAStringStagesItsInstructions : Obligations.LoadingAStringStagesItsInstructions := by
  unfold Obligations.LoadingAStringStagesItsInstructions
  intro s is rest hl hm hi hp hlen hc
  obtain ⟨t, hrun, hrest, hstaged⟩ := runSteps_pushString is hi hl hm hp hlen hc
  exact ⟨t, hrun, hrest, hstaged.len, hstaged.overflow, hstaged.earlier, hstaged.decodes⟩
end

section
/-! SUPPORT. A push into any block, the commit of a build that a push made unfit (R103, R104, R255), and the statement about
them. -/

namespace Sys2Proof.Machine

variable {s s0 : State}

theorem codeAssigned_iff {k : Code} : codeAssigned k = true ↔ k.toNat < 9 := by simp [codeAssigned]

theorem codeAssigned_eq_false_iff {k : Code} : codeAssigned k = false ↔ 9 ≤ k.toNat := by simp [codeAssigned]

/-! ### What a push does -/

theorem noteBadop_first {k : Code} (hk : codeAssigned k = false) (hb : s.stage.badopSeen = false) :
    noteBadop k s = { s with stage := { s.stage with badopSeen := true, badopIndex := s.stage.len } } := if_pos ⟨hk, hb⟩

/-- A code that is no reserved one, or not the first, is not noted (R104). -/
theorem noteBadop_eq_self {k : Code} (h : codeAssigned k = true ∨ s.stage.badopSeen = true) : noteBadop k s = s :=
  if_neg (by simpa only [not_and_or, Bool.not_eq_false] using h)

/-- Noting and appending a code touch the program store and the staging registers alone, and of these neither the overflow
flag nor what the configuration checks read. -/
theorem stageInstr_eq (k : Code) (s : State) :
    ∃ seen index, (codeAssigned k = false → seen = true) ∧ stageCode k (noteBadop k s) =
      { s with prog := Store.write s.prog s.stage.len k
               stage := { s.stage with len := s.stage.len + 1, badopSeen := seen, badopIndex := index } } := by
  by_cases h : codeAssigned k = true ∨ s.stage.badopSeen = true
  · rw [noteBadop_eq_self h]
    exact ⟨s.stage.badopSeen, s.stage.badopIndex, fun hk => h.resolve_left (by simp [hk]), rfl⟩
  · obtain ⟨hk, hb⟩ := not_or.1 h
    rw [noteBadop_first (Bool.eq_false_of_not_eq_true hk) (Bool.eq_false_of_not_eq_true hb)]
    exact ⟨true, s.stage.len, fun _ => rfl, rfl⟩

/-- A character never decodes to a reserved code, so its push is the push of its code (R103, R104, R129). -/
theorem doPushChar_eq_doPushInstr (c : CharCode) (s : State) : doPushChar c s = doPushInstr (decodeChar c) s := by
  simp only [doPushChar, doPushInstr, noteBadop_eq_self (.inl (codeAssigned_decodeChar c))]

/-- A step that handles a push, of a character or of a code, pushes the code. -/
theorem step_of_push {c : Cmd} {k : Code} (hn : nextMove s = (.cmd c, s0))
    (hc : (∃ ch, c = .progPushChar ch ∧ k = decodeChar ch) ∨ c = .progPushInstr k) :
    step s = .next (doPushInstr k s0) := by
  rw [step_of_cmd hn]
  rcases hc with ⟨ch, rfl, rfl⟩ | rfl
  · exact congrArg Host.Outcome.next (doPushChar_eq_doPushInstr ch s0)
  · rfl

theorem doPushInstr_notTaken (ht : ¬ (s.engState = .loading ∧ s.stage.mode = .suppliedProgram)) (k : Code) :
    doPushInstr k s = answer .ignored s := if_neg fun h => ht (pushTaken_iff.1 h)

theorem doPushInstr_room (hl : s.engState = .loading) (hm : s.stage.mode = .suppliedProgram)
    (hlen : s.stage.len < s.hw.progMax) (k : Code) :
    doPushInstr k s = answer .ok (stageCode k (noteBadop k s)) := by
  simp [doPushInstr, pushTaken_iff.2 ⟨hl, hm⟩, hlen]

theorem doPushInstr_full (hl : s.engState = .loading) (hm : s.stage.mode = .suppliedProgram)
    (hlen : ¬ s.stage.len < s.hw.progMax) (k : Code) : doPushInstr k s = answer .ok (stageOverflow s) := by
  simp [doPushInstr, pushTaken_iff.2 ⟨hl, hm⟩, hlen]

/-! ### The commit that follows -/

/-- A SUPPLIED build whose configuration checks, the first of R255, pass. -/
structure ConfigPasses (s : State) : Prop where
  loading : s.engState = .loading
  supplied : s.stage.mode = .suppliedProgram
  input : s.stage.inputPresent = true
  tape : ¬ (buildTapeLen s = 0 ∨ s.hw.tapeMax < buildTapeLen s)

/-- The tape a build asks for, the default or its own, fits the hardware and is not empty (R310). -/
theorem buildTapeLen_passes (hmax : Config.defaultTapeLen ≤ s.hw.tapeMax)
    (hts : s.stage.tsValid = true → s.stage.tsValue ≠ 0#32 ∧ s.stage.tsValue.toNat ≤ s.hw.tapeMax) :
    ¬ (buildTapeLen s = 0 ∨ s.hw.tapeMax < buildTapeLen s) := by
  rw [not_or, Nat.not_lt, buildTapeLen]
  split
  · next hv =>
    obtain ⟨hne, hle⟩ := hts hv
    exact ⟨fun h0 => hne (BitVec.eq_of_toNat_eq h0), hle⟩
  · exact ⟨by decide, hmax⟩

theorem ConfigPasses.stageOverflow (h : ConfigPasses s) : ConfigPasses (stageOverflow s) := { h with }

theorem ConfigPasses.stageInstr (h : ConfigPasses s) (k : Code) : ConfigPasses (stageCode k (noteBadop k s)) := by
  obtain ⟨seen, index, -, heq⟩ := stageInstr_eq k s
  rw [heq]; exact { h with }

theorem ConfigPasses.answer (h : ConfigPasses s) (r : Resp) : ConfigPasses (answer r s) := { h with }

/-- Past its configuration checks a SUPPLIED build fails as its program does (R255). -/
theorem ConfigPasses.buildFault_eq (h : ConfigPasses s) : buildFault s = programFault s := by
  simp only [buildFault, h.input, h.supplied, if_neg h.tape, Bool.true_eq_false, if_false]

theorem programFault_overflow (h : s.stage.overflow = true) :
    programFault s = some (.loadTooLong, zext32 s.hw.progMax) := if_pos h

theorem programFault_badop (ho : s.stage.overflow = false) (hb : s.stage.badopSeen = true) :
    programFault s = some (.loadBadOpcode, zext32 s.stage.badopIndex) := by
  simp only [programFault, ho, hb, Bool.false_eq_true, if_false, if_true]

/-- BUILD_COMMIT of such a build enters FAULT with the cause of its program (R255, R263). -/
theorem ConfigPasses.commit_fails (h : ConfigPasses s) {cause : Cause} {info : Word}
    (hf : programFault s = some (cause, info)) :
    ∃ u, doCmd .buildCommit s = .next u ∧ u.engState = .fault ∧ u.faultCause = cause ∧
      u.env.resp = some (.faulted cause) := by
  have hcommit : doBuildCommit s = Machine.answer (.faulted cause) (raise cause info s) := by
    simp only [doBuildCommit, h.loading, if_true, h.buildFault_eq, hf]
  exact ⟨_, congrArg Host.Outcome.next hcommit, rfl, rfl, rfl⟩

end Sys2Proof.Machine

open Sys2Proof Sys2Proof.Machine

/-- Settles O43: a push is the push of a code, which is ignored, or overflows, or is appended; the overflow and the reserved
code it leaves behind are what the commit finds. -/
theorem pushesAppend : Obligations.PushesAppend := by
  unfold Obligations.PushesAppend
  intro s s0 c k hn hc
  rw [step_of_push hn hc]
  refine ⟨fun ht => congrArg Host.Outcome.next (doPushInstr_notTaken ht k),
    fun hl hm hfull => congrArg Host.Outcome.next (doPushInstr_full hl hm hfull k), ?room, ?commit⟩
  case room =>
    intro hl hm hlen hp
    refine ⟨_, congrArg Host.Outcome.next (doPushInstr_room hl hm hlen k), ?frame, ?entry, ?others, ?first, ?later⟩
    case first =>
      intro hk hb
      rw [noteBadop_first (codeAssigned_eq_false_iff.2 hk) hb]; rfl
    case later =>
      intro h
      rw [noteBadop_eq_self (h.imp_left codeAssigned_iff.2)]; rfl
    all_goals obtain ⟨seen, index, -, heq⟩ := stageInstr_eq k s0; rw [heq]
    case frame => rfl
    case entry => exact stageCode_progRead_self hp k
    case others => exact fun i hi => stageCode_progRead_of_ne k hi
  case commit =>
    intro hl hm hin hmax hts
    have hcfg : ConfigPasses s0 := ⟨hl, hm, hin, buildTapeLen_passes hmax hts⟩
    refine ⟨_, rfl, fun hfull => ?tooLong, fun hlen ho hk => ?badOpcode⟩
    case tooLong =>
      rw [doPushInstr_full hl hm hfull]
      exact (hcfg.stageOverflow.answer .ok).commit_fails (programFault_overflow rfl)
    case badOpcode =>
      rw [doPushInstr_room hl hm hlen]
      refine ((hcfg.stageInstr k).answer .ok).commit_fails (programFault_badop ?_ ?_)
      all_goals obtain ⟨seen, index, hseen, heq⟩ := stageInstr_eq k s0; rw [heq]
      · exact ho
      · exact hseen (codeAssigned_eq_false_iff.2 hk)
end

section
/-! SUPPORT. Runs of any length from a state of the invariant go on, and the two statements about the model's own stops (R88,
R152, log 9, log 10). -/

namespace Sys2Proof.Machine

variable {s : State}

/-- No run from a state of the invariant stops: each step goes on, to a state of the invariant. -/
theorem BlockInv.runSteps_progress (h : BlockInv s) (n : Nat) : ∃ t, Machine.runSteps n s = .next t := by
  induction n generalizing s with
  | zero => exact ⟨s, rfl⟩
  | succ n ih =>
    obtain ⟨u, hu⟩ := h.step_progress
    obtain ⟨t, ht⟩ := ih (h.step hu)
    exact ⟨t, by simp only [runSteps_succ, hu, andThen_next, ht]⟩

/-- An I/O instruction that has its answer stops where MP is off the tape (log 9). -/
theorem completeInput_offTape (h : s.tapeLen ≤ s.mp) (r : InRsp) : completeInput r s = .fault (.tapeOutOfRange s.mp) :=
  withCell_offTape h _

theorem completeOutput_offTape (h : s.tapeLen ≤ s.mp) (r : OutRsp) :
    completeOutput r s = .fault (.tapeOutOfRange s.mp) := withCell_offTape h _

end Sys2Proof.Machine

open Sys2Proof Sys2Proof.Machine

/-- Settles O55: by induction on the number of steps, with the invariant carried along. -/
theorem noRunEverStops : Obligations.NoRunEverStops := by
  unfold Obligations.NoRunEverStops
  exact fun _ n h => h.runSteps_progress n

/-- Settles O20: each of the six instructions looks at the current cell before it writes anything. -/
theorem cellAccessOutsideTheTapeStops : Obligations.CellAccessOutsideTheTapeStops := by
  unfold Obligations.CellAccessOutsideTheTapeStops
  refine ⟨?atOnce, ?input, ?output, fun _ h hb => h.onTape hb⟩
  case atOnce =>
    rintro i s (rfl | rfl | rfl | rfl) hm
    · rw [exec, execIncrementValue, withCell_offTape hm]
    · rw [exec, execDecrementValue, withCell_offTape hm]
    · rw [exec, execJumpForward, withCell_offTape hm]
    · rw [exec, execJumpBackward, withCell_offTape hm]
  case input =>
    intro s r q hq hm
    rw [execInputValue_answered hq]
    exact completeInput_offTape (s := { s with env := { s.env with inputs := q } }) hm r
  case output =>
    intro s r q hq hm
    rw [execOutputValue_answered hq]
    exact completeOutput_offTape (s := { s with env := { s.env with outputs := q } }) hm r
end

section
/-! SUPPORT. What READ_TAPE and READ_PROG answer, one equation per case (R101, R102), and the two statements about them. -/

namespace Sys2Proof.Machine

variable {s : State}

theorem doReadTape_ok {i : Word} (hb : s.built = true) (hi : i.toNat < s.tapeLen) :
    doReadTape i s = answer (.tape .ok (Memory.read s.tape i.toNat)) s := if_pos ⟨hb, hi⟩

theorem doReadTape_invalid {i : Word} (h : ¬ (s.built = true ∧ i.toNat < s.tapeLen)) :
    doReadTape i s = answer (.tape .invalid 0#8) s := if_neg h

theorem doReadProg_refused (hw : s.ioWait ≠ .idle) (i : Nat) : doReadProg i .index s = answer .refused s :=
  if_pos ⟨rfl, hw⟩

/-- An index of `PC_W` bits reaches the program store as it is (log 11). -/
theorem doReadProg_eq_readProgAt {i : Nat} {mode : ReadMode} (hm : mode = .get ∨ s.ioWait = .idle)
    (hi : i < 2 ^ s.hw.pcW) : doReadProg i mode s = readProgAt i mode s := by
  have hgo : ¬ (mode = .index ∧ s.ioWait ≠ .idle) := by
    rcases hm with rfl | hw
    · exact fun h => nomatch h.1
    · exact fun h => h.2 hw
  rw [doReadProg, if_neg hgo, Nat.mod_eq_of_lt hi]

theorem readProgAt_notBuilt (hb : ¬ s.built = true) (i : Nat) (mode : ReadMode) :
    readProgAt i mode s = answer (.prog .invalid 0#4) s := if_pos (Bool.eq_false_of_not_eq_true hb)

theorem readProgAt_inside {i : Nat} (hb : s.built = true) (hv : s.progValid = true) (hi : i < s.progLen)
    (mode : ReadMode) : readProgAt i mode s = answer (.prog .ok (s.progRead i)) s := by
  simp [readProgAt, hb, hv, hi]

theorem readProgAt_outside_get {i : Nat} (hb : s.built = true) (hi : ¬ (s.progValid = true ∧ i < s.progLen)) :
    readProgAt i .get s = answer (.prog .none 0#4) s := by
  simp only [readProgAt, hb, if_neg hi, Bool.true_eq_false, if_false]

theorem readProgAt_outside_index {i : Nat} (hb : s.built = true) (hi : ¬ (s.progValid = true ∧ i < s.progLen)) :
    readProgAt i .index s = answer (.faulted .bounds) (raise .bounds (zext32 i) s) := by
  simp only [readProgAt, hb, if_neg hi, Bool.true_eq_false, if_false]

end Sys2Proof.Machine

open Sys2Proof Sys2Proof.Machine

/-- Settles O49: the two cases of READ_TAPE. -/
theorem readTapeAnswers : Obligations.ReadTapeAnswers := by
  unfold Obligations.ReadTapeAnswers
  intro s s0 i hn
  rw [step_of_cmd hn, ← State.built_iff]
  exact ⟨fun hb hi => congrArg Host.Outcome.next (doReadTape_ok hb hi),
    fun h => congrArg Host.Outcome.next (doReadTape_invalid h)⟩

/-- Settles O50: the refusal comes first, and then the cases of READ_PROG at the index itself. -/
theorem readProgAnswers : Obligations.ReadProgAnswers := by
  unfold Obligations.ReadProgAnswers
  intro s s0 i m hn hi
  rw [step_of_cmd hn, ← State.built_iff]
  refine ⟨?refused, fun hm => ?taken⟩
  case refused =>
    rintro rfl hw
    exact congrArg Host.Outcome.next (doReadProg_refused hw i)
  case taken =>
    rw [doCmd, doReadProg_eq_readProgAt hm hi]
    refine ⟨fun hb => ?notBuilt, fun hb hv hlt => ?inside, fun hb hout => ⟨?get, ?index⟩⟩
    case notBuilt => exact congrArg Host.Outcome.next (readProgAt_notBuilt hb i m)
    case inside => exact congrArg Host.Outcome.next (readProgAt_inside hb hv hlt m)
    case get => rintro rfl; exact congrArg Host.Outcome.next (readProgAt_outside_get hb hout)
    case index => rintro rfl; exact congrArg Host.Outcome.next (readProgAt_outside_index hb hout)
end

section
/-! SUPPORT. What a step can do to a block that is built and stays built, and the two statements about it (R30, R86, R91, R94). -/

namespace Sys2Proof.Machine

variable {s s0 t : State}

/-- A host command other than STEP that leaves a built block built only answers. -/
theorem doCmd_answers_of_built {c : Cmd} (hb : s.built = true) (hc : c ≠ .step) (hd : doCmd c s = .next t)
    (ht : t.built = true) : ∃ r, t = answer r s := by
  have hl : s.engState ≠ .loading := by rcases State.built_iff.1 hb with he | he <;> simp [he]
  cases c with
  | reset => cases hd; cases ht
  | buildBegin mode tsValid tsValue present => cases hd; cases ht
  | progPushChar ch => cases hd; exact ⟨_, doPushChar_ignored hl ch⟩
  | progPushInstr k => cases hd; exact ⟨_, doPushInstr_ignored hl k⟩
  | buildCommit => cases hd; exact ⟨_, doBuildCommit_ignored hl⟩
  | step => exact absurd rfl hc
  | readCsr addr => cases hd; exact ⟨_, doReadCsr_eq addr s⟩
  | readTape i => cases hd; exact doReadTape_answers i s
  | readProg i mode =>
    cases hd
    rcases doReadProg_cases i mode s with hr | ⟨-, info, hr⟩
    · exact hr
    · rw [hr] at ht; cases ht

/-- A step of a built block that stays built: the block answers and no more, or it executes an instruction, or it completes
the one that waits. -/
theorem step_built_cases (hb : s.built = true) (hs : step s = .next t) (ht : t.built = true) :
    ∃ s0, SameBlock s s0 ∧
      ((∃ r, t = answer r s0) ∨
        (s.nextCmd = some .step ∧ ∃ i u, exec i s0 = .next u ∧ t = answerStep u) ∨
        (s.nextCmd = none ∧ ∃ r u, completeInput r s0 = .next u ∧ t = answerStep u) ∨
        (s.nextCmd = none ∧ ∃ r u, completeOutput r s0 = .next u ∧ t = answerStep u)) := by
  obtain ⟨s0, hsame, ⟨c, hn, hd⟩ | ⟨r, u, hn, -, hc, rfl⟩ | ⟨r, u, hn, -, hc, rfl⟩⟩ := step_cases hs <;>
    refine ⟨s0, hsame, ?_⟩
  · by_cases hc : c = .step
    · subst hc
      rcases doStep_cases hd with ⟨-, rfl⟩ | ⟨-, i, u, -, he, rfl⟩
      · exact .inl ⟨_, rfl⟩
      · exact .inr (.inl ⟨nextCmd_of_nextMove hn, i, u, he, rfl⟩)
    · exact .inl (doCmd_answers_of_built (hsame.built.trans hb) hc hd ht)
  · exact .inr (.inr (.inl ⟨by simp [State.nextCmd, hn], r, u, hc, rfl⟩))
  · exact .inr (.inr (.inr ⟨by simp [State.nextCmd, hn], r, u, hc, rfl⟩))

/-! ### The program and the lengths (R94) -/

/-- The hardware, the program and the two lengths are those of `s`. -/
def KeepsProgram (s t : State) : Prop :=
  t.prog = s.prog ∧ t.progLen = s.progLen ∧ t.progValid = s.progValid ∧ t.tapeLen = s.tapeLen ∧ t.hw = s.hw

theorem exec_keepsProgramAndLengths {i : Instr} (h : exec i s = .next t) : KeepsProgram s t := by
  obtain ⟨hhw, htapeLen, hprog, hprogLen, hvalid, -⟩ := exec_keepsProgram h
  exact ⟨hprog, hprogLen, hvalid, htapeLen, hhw⟩

theorem completeInput_keepsProgram {r : InRsp} (h : completeInput r s = .next t) : KeepsProgram s t := by
  obtain ⟨-, ⟨b, -, rfl⟩ | ⟨-, rfl⟩⟩ := completeInput_cases h <;> exact ⟨rfl, rfl, rfl, rfl, rfl⟩

theorem completeOutput_keepsProgram {r : OutRsp} (h : completeOutput r s = .next t) : KeepsProgram s t := by
  obtain ⟨-, rfl⟩ := completeOutput_cases h
  exact ⟨rfl, rfl, rfl, rfl, rfl⟩

theorem KeepsProgram.answerStep (h : KeepsProgram s t) : KeepsProgram s (answerStep t) := h

theorem SameBlock.keepsProgram (h : SameBlock s s0) (ht : KeepsProgram s0 t) : KeepsProgram s t := by
  rw [h] at ht; exact ht

/-! ### The transaction and the cell (R86, R91) -/

/-- From `s` to `t` at most one I/O transaction was performed, an output of the current cell or an input, and at most the
current cell was written. -/
structure OneTransaction (s t : State) : Prop where
  emits : t.env.emitted = s.env.emitted ∨ t.env.emitted = s.env.emitted ++ [Memory.read s.tape s.mp]
  consumes : t.env.consumed = s.env.consumed ∨ ∃ r, t.env.consumed = s.env.consumed ++ [r]
  notBoth : t.env.emitted = s.env.emitted ∨ t.env.consumed = s.env.consumed
  cells : ∀ a, a ≠ s.mp → Memory.read t.tape a = Memory.read s.tape a

/-- No transaction and no write. -/
theorem OneTransaction.quiet (he : t.env.emitted = s.env.emitted) (hc : t.env.consumed = s.env.consumed)
    (ht : t.tape = s.tape) : OneTransaction s t :=
  ⟨.inl he, .inl hc, .inl he, fun a _ => by rw [ht]⟩

/-- A write of the current cell, and no transaction. -/
theorem OneTransaction.write (he : t.env.emitted = s.env.emitted) (hc : t.env.consumed = s.env.consumed) {v : Byte}
    (ht : t.tape = Memory.write s.tape s.mp v) : OneTransaction s t :=
  ⟨.inl he, .inl hc, .inl he, fun a ha => by rw [ht, Memory.read_write_of_ne _ _ ha]⟩

theorem completeInput_oneTransaction {r : InRsp} (h : completeInput r s = .next t) : OneTransaction s t := by
  obtain ⟨-, ⟨b, -, rfl⟩ | ⟨-, rfl⟩⟩ := completeInput_cases h
  · exact ⟨.inl rfl, .inr ⟨r, rfl⟩, .inl rfl, fun a ha => Memory.read_write_of_ne _ _ ha⟩
  · exact ⟨.inl rfl, .inr ⟨r, rfl⟩, .inl rfl, fun a _ => rfl⟩

theorem completeOutput_oneTransaction {r : OutRsp} (h : completeOutput r s = .next t) : OneTransaction s t := by
  obtain ⟨-, rfl⟩ := completeOutput_cases h
  exact ⟨.inr rfl, .inl rfl, .inr rfl, fun a _ => rfl⟩

theorem OneTransaction.answerStep (h : OneTransaction s t) : OneTransaction s (answerStep t) := { h with }

theorem SameBlock.oneTransaction (h : SameBlock s s0) (ht : OneTransaction s0 t) : OneTransaction s t := by
  rw [h] at ht; exact { ht with }

/-- No instruction performs more than its one transaction, or writes another cell. -/
theorem exec_oneTransaction {i : Instr} (h : exec i s = .next t) : OneTransaction s t := by
  cases i <;> simp only [exec] at h
  case incrementPointer => cases h; exact .quiet rfl rfl rfl
  case decrementPointer => cases h; exact .quiet rfl rfl rfl
  case incrementValue => obtain ⟨-, rfl⟩ := execIncrementValue_cases h; exact .write rfl rfl rfl
  case decrementValue => obtain ⟨-, rfl⟩ := execDecrementValue_cases h; exact .write rfl rfl rfl
  case outputValue =>
    obtain ⟨q, ⟨r, -, hc⟩ | rfl⟩ := execOutputValue_cases h
    · exact { completeOutput_oneTransaction hc with }
    · exact .quiet rfl rfl rfl
  case inputValue =>
    obtain ⟨q, ⟨r, -, hc⟩ | rfl⟩ := execInputValue_cases h
    · exact { completeInput_oneTransaction hc with }
    · exact .quiet rfl rfl rfl
  case jumpForward =>
    obtain ⟨-, ⟨-, rfl⟩ | ⟨-, j, -, rfl⟩ | ⟨-, -, rfl⟩⟩ := execJumpForward_cases h <;> exact .quiet rfl rfl rfl
  case jumpBackward =>
    obtain ⟨-, ⟨-, rfl⟩ | ⟨-, j, -, rfl⟩ | ⟨-, -, rfl⟩⟩ := execJumpBackward_cases h <;> exact .quiet rfl rfl rfl
  case noOp => cases h; exact .quiet rfl rfl rfl

theorem step_oneTransaction (hb : s.built = true) (hs : step s = .next t) (ht : t.built = true) : OneTransaction s t := by
  obtain ⟨s0, hsame, ⟨r, rfl⟩ | ⟨-, i, u, he, rfl⟩ | ⟨-, r, u, hc, rfl⟩ | ⟨-, r, u, hc, rfl⟩⟩ :=
    step_built_cases hb hs ht
  · exact hsame.oneTransaction (.quiet rfl rfl rfl)
  · exact hsame.oneTransaction (exec_oneTransaction he).answerStep
  · exact hsame.oneTransaction (completeInput_oneTransaction hc).answerStep
  · exact hsame.oneTransaction (completeOutput_oneTransaction hc).answerStep

/-- A host command other than STEP only answers, in a block that is built and stays built. -/
theorem step_otherCmd {c : Cmd} (hb : s.built = true) (hs : step s = .next t) (ht : t.built = true)
    (hn : s.nextCmd = some c) (hc : c ≠ .step) : ∃ s0 r, SameBlock s s0 ∧ t = answer r s0 := by
  obtain ⟨s0, hsame, ⟨r, hr⟩ | ⟨hstep, -⟩ | ⟨hnone, -⟩ | ⟨hnone, -⟩⟩ := step_built_cases hb hs ht
  · exact ⟨s0, r, hsame, hr⟩
  · exact absurd (Option.some.inj (hn.symm.trans hstep)) hc
  · exact nomatch hn.symm.trans hnone
  · exact nomatch hn.symm.trans hnone

end Sys2Proof.Machine

open Sys2Proof Sys2Proof.Machine

/-- Settles O57: of what a built block can do and stay built, an answer writes nothing and an instruction no program. -/
theorem builtProgramIsImmutable : Obligations.BuiltProgramIsImmutable := by
  unfold Obligations.BuiltProgramIsImmutable
  intro s t hb hs ht
  obtain ⟨s0, hsame, ⟨r, rfl⟩ | ⟨-, i, u, he, rfl⟩ | ⟨-, r, u, hc, rfl⟩ | ⟨-, r, u, hc, rfl⟩⟩ :=
    step_built_cases hb hs ht
  · exact hsame.keepsProgram ⟨rfl, rfl, rfl, rfl, rfl⟩
  · exact hsame.keepsProgram (exec_keepsProgramAndLengths he).answerStep
  · exact hsame.keepsProgram (completeInput_keepsProgram hc).answerStep
  · exact hsame.keepsProgram (completeOutput_keepsProgram hc).answerStep

/-- Settles O59: a step that executes or completes an instruction performs its one transaction, and every other step only
answers. -/
theorem oneTransactionAStep : Obligations.OneTransactionAStep := by
  unfold Obligations.OneTransactionAStep
  intro s t hb hs ht
  obtain ⟨hemits, hconsumes, hnotBoth, hcells⟩ := step_oneTransaction hb hs ht
  refine ⟨hemits, hconsumes, hnotBoth, hcells, fun c hn hc => ?_⟩
  obtain ⟨s0, r, hsame, rfl⟩ := step_otherCmd hb hs ht hn hc
  rw [hsame]
  exact ⟨rfl, rfl, rfl, rfl, rfl⟩
end

section
/-! SUPPORT. What the decoder answers for a character and for a stored code (R121, R124, R125, R128, R129), and the three
statements about the encoding. -/

namespace Sys2Proof

/-- A source character that is the character of a kind is read as the kind (R121, R124, R125). -/
theorem decodeSource_encodeChar (i : Instr) : decodeSource (encodeChar i) = .ok i := by
  rw [decodeSource, decodeChar_encodeChar, decodeCode_encodeCode]

/-- A character that is none of the eight commands is loaded as NoOp's code (R128). -/
theorem decodeChar_of_not_command {c : CharCode} (hgt : c ≠ 0x3E#21) (hlt : c ≠ 0x3C#21) (hplus : c ≠ 0x2B#21)
    (hminus : c ≠ 0x2D#21) (hdot : c ≠ 0x2E#21) (hcomma : c ≠ 0x2C#21) (hopen : c ≠ 0x5B#21) (hclose : c ≠ 0x5D#21) :
    decodeChar c = encodeCode .noOp := by
  simp only [decodeChar, hgt, hlt, hplus, hminus, hdot, hcomma, hopen, hclose, if_false, encodeCode]

/-- A reserved code is rejected by name (R129). -/
theorem decodeCode_of_reserved {k : Code} (h : codeAssigned k = false) : decodeCode k = .error (.reservedCode k) := by
  unfold decodeCode
  split_ifs
  case neg => rfl
  all_goals subst k; cases h

end Sys2Proof

open Sys2Proof

/-- Settles O1: the eight command words and code 0 are the characters of their kinds; `x` is a comment, so NoOp. -/
theorem sourceWordsDecode : Obligations.SourceWordsDecode := by
  unfold Obligations.SourceWordsDecode
  exact ⟨decodeSource_encodeChar .incrementPointer, decodeSource_encodeChar .decrementPointer,
    decodeSource_encodeChar .incrementValue, decodeSource_encodeChar .decrementValue, decodeSource_encodeChar .outputValue,
    decodeSource_encodeChar .inputValue, decodeSource_encodeChar .jumpForward, decodeSource_encodeChar .jumpBackward,
    rfl, decodeSource_encodeChar .noOp⟩

/-- Settles O2: every character is loaded as an assigned code, which decodes, and as NoOp's unless it is a command. -/
theorem otherCharactersAreNoOp : Obligations.OtherCharactersAreNoOp := by
  unfold Obligations.OtherCharactersAreNoOp
  intro c
  have hassigned : codeAssigned (decodeChar c) = true := codeAssigned_decodeChar c
  refine ⟨decodeCode_of_codeAssigned hassigned, hassigned, fun hgt hlt hplus hminus hdot hcomma hopen hclose => ?_⟩
  have hnoOp : decodeChar c = encodeCode .noOp :=
    decodeChar_of_not_command hgt hlt hplus hminus hdot hcomma hopen hclose
  exact ⟨hnoOp, by rw [decodeSource, hnoOp, decodeCode_encodeCode]⟩

/-- Settles O3: the round trips kind by kind; an assigned code decodes, to the kind whose code it is. -/
theorem decodeEncodeAgree : Obligations.DecodeEncodeAgree := by
  unfold Obligations.DecodeEncodeAgree
  refine ⟨fun i => ⟨decodeCode_encodeCode i, decodeSource_encodeChar i, decodeChar_encodeChar i⟩, fun k hk => ?_,
    fun k hk => decodeCode_of_reserved hk⟩
  obtain ⟨i, hi⟩ := decodeCode_of_codeAssigned hk
  exact ⟨i, hi, (eq_encodeCode_of_decodeCode hi).symm⟩
end

section
/-! SUPPORT. What STEP does and answers (R150, R151), the end of a step (R155, R156), which instructions enter FAULT (R159), and
the five statements about them. -/

namespace Sys2Proof.Machine

variable {s t : State}

/-! ### STEP: acceptance, execution, answer -/

/-- STEP is accepted exactly in a built block with no step in progress (R150). -/
theorem stepAccepted_iff_engState :
    stepAccepted s = true ↔ (s.engState = .running ∨ s.engState = .halted) ∧ s.ioWait = .idle := by
  rw [stepAccepted_iff, State.built_iff]

theorem doStep_refused (hacc : ¬ stepAccepted s = true) : doStep s = .next (answer .refused s) := if_neg hacc

/-- An accepted STEP executes the instruction it fetched, and answers the host afterwards (R150, R152). -/
theorem doStep_fetched {i : Instr} (hacc : stepAccepted s = true) (hf : decodeCode (fetchCode s) = .ok i) :
    doStep s = andThen (exec i s) fun t => .next (answerStep t) := by
  simp only [doStep, hacc, hf, if_true]

/-- Past the program's end the fetch is NoOp (R151). -/
theorem decodeCode_fetchCode_of_progLen_le (hpc : s.progLen ≤ s.pc) : decodeCode (fetchCode s) = .ok .noOp := by
  rw [fetchCode_of_progLen_le hpc, decodeCode_encodeCode]

theorem stepResp_waiting (hw : s.ioWait ≠ .idle) : stepResp s = none := if_pos hw

theorem stepResp_faulted (hi : s.ioWait = .idle) (he : s.engState = .fault) :
    stepResp s = some (.faulted s.faultCause) := by simp [stepResp, hi, he]

theorem stepResp_done (hi : s.ioWait = .idle) (he : s.engState ≠ .fault) : stepResp s = some .done := by
  simp [stepResp, hi, he]

/-! ### The end of a step -/

/-- The post-increment lowers PC nowhere, in its register's range or out of it (R155). -/
theorem self_le_incPc (hw : Params) (pc : Nat) : pc ≤ incPc hw pc := by unfold incPc; split <;> omega

theorem incPc_of_lt {hw : Params} {pc : Nat} (h : pc < hw.pcMax) : incPc hw pc = pc + 1 := if_neg h.ne

/-- Inside the program PC is below PC_MAX, so a post-increment there does not saturate (R8, R36). -/
theorem BlockInv.lt_pcMax (h : BlockInv s) {j : Nat} (hj : j < s.progLen) : j < s.hw.pcMax :=
  hj.trans_le (h.progLenRange.trans (Params.progMax_le_pcMax h.hw))

/-- At or past the program's end a step ends HALTED (R156). -/
theorem endStep_of_progLen_le (hpc : s.progLen ≤ s.pc) :
    endStep s = { s with pc := incPc s.hw s.pc, engState := .halted } := by
  rw [endStep, builtState_eq_halted_iff.2 (hpc.trans (self_le_incPc s.hw s.pc))]

theorem endStep_ne_fault (s : State) : (endStep s).engState ≠ .fault := builtState_ne_fault _ _

/-! ### The instructions that enter FAULT -/

theorem completeInput_ne_fault {r : InRsp} (h : completeInput r s = .next t) : t.engState ≠ .fault := by
  obtain ⟨-, ⟨b, -, rfl⟩ | ⟨-, rfl⟩⟩ := completeInput_cases h <;> exact endStep_ne_fault _

theorem completeOutput_ne_fault {r : OutRsp} (h : completeOutput r s = .next t) : t.engState ≠ .fault := by
  obtain ⟨-, rfl⟩ := completeOutput_cases h
  exact endStep_ne_fault _

/-- From outside FAULT an instruction enters it only by a jump that finds no match, and the fault entry is all it does. -/
theorem exec_enters_fault {i : Instr} (hs : s.engState ≠ .fault) (h : exec i s = .next t) (ht : t.engState = .fault) :
    (i = .jumpForward ∧ t = raise .runUnmatchedJF (zext32 s.pc) s) ∨
      (i = .jumpBackward ∧ t = raise .runUnmatchedJB (zext32 s.pc) s) := by
  cases i <;> simp only [exec] at h
  case incrementPointer => cases h; exact absurd ht (endStep_ne_fault _)
  case decrementPointer => cases h; exact absurd ht (endStep_ne_fault _)
  case incrementValue => obtain ⟨-, rfl⟩ := execIncrementValue_cases h; exact absurd ht (endStep_ne_fault _)
  case decrementValue => obtain ⟨-, rfl⟩ := execDecrementValue_cases h; exact absurd ht (endStep_ne_fault _)
  case outputValue =>
    obtain ⟨q, ⟨r, -, hc⟩ | rfl⟩ := execOutputValue_cases h
    · exact absurd ht (completeOutput_ne_fault hc)
    · exact absurd ht hs
  case inputValue =>
    obtain ⟨q, ⟨r, -, hc⟩ | rfl⟩ := execInputValue_cases h
    · exact absurd ht (completeInput_ne_fault hc)
    · exact absurd ht hs
  case jumpForward =>
    obtain ⟨-, ⟨-, rfl⟩ | ⟨-, j, -, rfl⟩ | ⟨-, -, rfl⟩⟩ := execJumpForward_cases h
    · exact absurd ht (endStep_ne_fault _)
    · exact absurd ht (endStep_ne_fault _)
    · exact .inl ⟨rfl, rfl⟩
  case jumpBackward =>
    obtain ⟨-, ⟨-, rfl⟩ | ⟨-, j, -, rfl⟩ | ⟨-, -, rfl⟩⟩ := execJumpBackward_cases h
    · exact absurd ht (endStep_ne_fault _)
    · exact absurd ht (endStep_ne_fault _)
    · exact .inr ⟨rfl, rfl⟩
  case noOp => cases h; exact absurd ht (endStep_ne_fault _)

end Sys2Proof.Machine

open Sys2Proof Sys2Proof.Machine

/-- Settles O10: every other end of an instruction is the end of a step or a wait, and neither is in FAULT. -/
theorem instructionFaultsArePrecise : Obligations.InstructionFaultsArePrecise := by
  unfold Obligations.InstructionFaultsArePrecise
  exact fun i s t hs h ht => exec_enters_fault hs h ht

/-- Settles O6: in both cases the fetch decodes to the instruction, so the accepted STEP executes it. -/
theorem stepRunsTheDecodedInstruction : Obligations.StepRunsTheDecodedInstruction := by
  unfold Obligations.StepRunsTheDecodedInstruction
  intro s s0 i hn he hi hcode
  have hf : decodeCode (fetchCode s0) = .ok i := by
    rcases hcode with ⟨hpc, hdec⟩ | ⟨hpc, rfl⟩
    · rw [fetchCode_of_pc_lt hpc, hdec]
    · exact decodeCode_fetchCode_of_progLen_le hpc
  exact (step_of_cmd hn).trans (doStep_fetched (stepAccepted_iff_engState.2 ⟨he, hi⟩) hf)

/-- Settles O7: the two branches of STEP, and the answer that the state after the execution gives. -/
theorem stepAcceptance : Obligations.StepAcceptance := by
  unfold Obligations.StepAcceptance
  intro s s0 hn
  have hstep : step s = doStep s0 := step_of_cmd hn
  rw [← stepAccepted_iff_engState, hstep]
  refine ⟨doStep_refused, fun hacc t ht => ?_, fun hacc i hf => doStep_fetched hacc hf⟩
  obtain ⟨hrej, -⟩ | ⟨-, i, u, -, -, rfl⟩ := doStep_cases ht
  · simp [hacc] at hrej
  · exact ⟨stepResp_waiting, stepResp_faulted, stepResp_done⟩

/-- Settles O8: the equation is `endStep`'s own; below PROG_LEN, and so below PC_MAX, the post-increment adds one. -/
theorem endOfStep : Obligations.EndOfStep := by
  unfold Obligations.EndOfStep
  exact ⟨fun _ => rfl, fun s h hr => incPc_of_lt (h.lt_pcMax (h.running hr)), fun s j h hj => incPc_of_lt (h.lt_pcMax hj)⟩

/-- Settles O9: the STEP is a NoOp, whose end of step stays HALTED and answers DONE. -/
theorem haltedStepOnlyRaisesPc : Obligations.HaltedStepOnlyRaisesPc := by
  unfold Obligations.HaltedStepOnlyRaisesPc
  intro s s0 hn he hi hpc
  have hacc : stepAccepted s0 = true := stepAccepted_iff_engState.2 ⟨.inr he, hi⟩
  have hdone : stepResp (endStep s0) = some .done := stepResp_done hi (endStep_ne_fault s0)
  calc step s = doStep s0 := step_of_cmd hn
    _ = .next (answerStep (endStep s0)) := doStep_fetched hacc (decodeCode_fetchCode_of_progLen_le hpc)
    _ = _ := by rw [answerStep, hdone, endStep_of_progLen_le hpc]; rfl
end

section
/-! SUPPORT. The pointer instructions as one circular move of MP (R180, R185): what a move writes, what moves in a row add up
to, and the five statements about them. -/

namespace Sys2Proof.Machine

variable {s : State}

/-- The two forms of R180. -/
theorem ite_last_eq_add_one_mod {n m : Nat} (h : m < n) : (if m = n - 1 then 0 else m + 1) = (m + 1) % n := by
  split
  case isTrue hlast => rw [hlast, Nat.sub_add_cancel (by omega), Nat.mod_self]
  case isFalse hlast => exact (Nat.mod_eq_of_lt (by omega)).symm

theorem mpRight_eq_mod {n m : Nat} (h : m < n) : mpRight n m = (m + 1) % n := by
  have hlast : m + 1 = n ↔ m = n - 1 := by omega
  simp only [mpRight, hlast, ite_last_eq_add_one_mod h]

/-- The two forms of R185: one cell left is `n - 1` cells right. -/
theorem mpLeft_eq_mod {n m : Nat} (h : m < n) : mpLeft n m = (m + (n - 1)) % n := by
  unfold mpLeft
  split
  case isTrue hzero => rw [hzero, Nat.zero_add, Nat.mod_eq_of_lt (by omega)]
  case isFalse hpos =>
    have hwrap : m + (n - 1) = m - 1 + n := by omega
    rw [hwrap, Nat.add_mod_right, Nat.mod_eq_of_lt (by omega)]

/-- A step that moves MP `k` cells right, circularly. -/
def moveMp (k : Nat) (s : State) : State := endStep { s with mp := (s.mp + k) % s.tapeLen }

@[simp] theorem moveMp_mp (k : Nat) (s : State) : (moveMp k s).mp = (s.mp + k) % s.tapeLen := rfl
@[simp] theorem moveMp_tapeLen (k : Nat) (s : State) : (moveMp k s).tapeLen = s.tapeLen := rfl

theorem exec_incrementPointer (h : s.mp < s.tapeLen) : exec .incrementPointer s = .next (moveMp 1 s) := by
  rw [moveMp, ← mpRight_eq_mod h]; rfl

theorem exec_decrementPointer (h : s.mp < s.tapeLen) :
    exec .decrementPointer s = .next (moveMp (s.tapeLen - 1) s) := by
  rw [moveMp, ← mpLeft_eq_mod h]; rfl

/-- Two moves that make one round together restore MP. -/
theorem moveMp_moveMp_mp {j k : Nat} (h : s.mp < s.tapeLen) (hround : j + k = s.tapeLen) :
    (moveMp k (moveMp j s)).mp = s.mp := by
  calc (moveMp k (moveMp j s)).mp = (s.mp + j + k) % s.tapeLen := Nat.mod_add_mod _ _ _
    _ = s.mp := by rw [Nat.add_assoc, hround, Nat.add_mod_right, Nat.mod_eq_of_lt h]

theorem moveMp_mp_lt (h : s.mp < s.tapeLen) (k : Nat) : (moveMp k s).mp < (moveMp k s).tapeLen :=
  Nat.mod_lt _ (Nat.zero_lt_of_lt h)

/-- `n` executions of an instruction that moves MP by `k` move it by `n * k`. -/
theorem repeatExec_of_moves {i : Instr} {L k : Nat}
    (hmove : ∀ u : State, u.tapeLen = L → u.mp < u.tapeLen → exec i u = .next (moveMp k u)) (n : Nat) :
    ∀ s : State, s.tapeLen = L → s.mp < s.tapeLen → ∃ t, repeatExec i n s = .next t ∧ t.mp = (s.mp + n * k) % L := by
  induction n with
  | zero => exact fun s hL h => ⟨s, rfl, by rw [Nat.zero_mul, Nat.add_zero, Nat.mod_eq_of_lt (hL ▸ h)]⟩
  | succ n ih =>
    intro s hL h
    obtain ⟨t, ht, hmp⟩ := ih (moveMp k s) hL (moveMp_mp_lt h k)
    refine ⟨t, by rw [repeatExec, hmove s hL h, andThen_next, ht], ?_⟩
    rw [hmp, moveMp_mp, hL, Nat.mod_add_mod, Nat.succ_mul, Nat.add_assoc, Nat.add_comm k]

/-- TAPE_LEN executions of it are a whole number of rounds (R188). -/
theorem repeatExec_tapeLen_of_moves {i : Instr} {k : Nat}
    (hmove : ∀ u : State, u.tapeLen = s.tapeLen → u.mp < u.tapeLen → exec i u = .next (moveMp k u))
    (h : s.mp < s.tapeLen) : ∃ t, repeatExec i s.tapeLen s = .next t ∧ t.mp = s.mp := by
  obtain ⟨t, ht, hmp⟩ := repeatExec_of_moves hmove s.tapeLen s rfl h
  exact ⟨t, ht, by rw [hmp, Nat.add_mul_mod_self_left, Nat.mod_eq_of_lt h]⟩

/-- A pointer instruction is the end of a step after a write of MP, whose new value is read off TAPE_LEN and MP alone. -/
theorem exec_pointer {i : Instr} (hi : i = .incrementPointer ∨ i = .decrementPointer) :
    ∃ f : Nat → Nat → Nat, ∀ s : State, exec i s = .next (endStep { s with mp := f s.tapeLen s.mp }) := by
  rcases hi with rfl | rfl
  · exact ⟨mpRight, fun _ => rfl⟩
  · exact ⟨mpLeft, fun _ => rfl⟩

end Sys2Proof.Machine

open Sys2Proof Sys2Proof.Machine

/-- Settles O14: the moves by 1 and by TAPE_LEN - 1 make one round together, and TAPE_LEN moves of either are whole rounds. -/
theorem pointerMovesRoundTrip : Obligations.PointerMovesRoundTrip := by
  unfold Obligations.PointerMovesRoundTrip
  intro s h
  have hright : exec .incrementPointer s = .next (moveMp 1 s) := exec_incrementPointer h
  have hleft : exec .decrementPointer s = .next (moveMp (s.tapeLen - 1) s) := exec_decrementPointer h
  refine ⟨?_, ?_, ?_, ?_⟩
  · rw [hright, andThen_next]
    exact ⟨_, exec_decrementPointer (moveMp_mp_lt h 1), moveMp_moveMp_mp h (by rw [moveMp_tapeLen]; omega)⟩
  · rw [hleft, andThen_next]
    exact ⟨_, exec_incrementPointer (moveMp_mp_lt h _), moveMp_moveMp_mp h (by omega)⟩
  · exact repeatExec_tapeLen_of_moves (fun u _ hu => exec_incrementPointer hu) h
  · exact repeatExec_tapeLen_of_moves (fun u hL hu => hL ▸ exec_decrementPointer hu) h

/-- Settles O11: on the tape the model's move is the modular one. -/
theorem incrementPointerMovesRight : Obligations.IncrementPointerMovesRight := by
  unfold Obligations.IncrementPointerMovesRight
  exact ⟨decodeChar_encodeChar .incrementPointer, decodeCode_encodeCode .incrementPointer,
    fun s h => ⟨exec_incrementPointer h, ite_last_eq_add_one_mod h⟩⟩

/-- Settles O12: on the tape the model's move is the modular one, and its definition is the conditional form. -/
theorem decrementPointerMovesLeft : Obligations.DecrementPointerMovesLeft := by
  unfold Obligations.DecrementPointerMovesLeft
  refine ⟨decodeChar_encodeChar .decrementPointer, decodeCode_encodeCode .decrementPointer, fun s h => ?_⟩
  rw [Nat.add_sub_assoc (Nat.one_le_of_lt h)]
  exact ⟨exec_decrementPointer h, mpLeft_eq_mod h⟩

/-- Settles O13: both instructions leave MP at a remainder modulo 1. -/
theorem oneCellTapeKeepsMp : Obligations.OneCellTapeKeepsMp := by
  unfold Obligations.OneCellTapeKeepsMp
  intro s hlen hmp
  have h : s.mp < s.tapeLen := by omega
  have hzero (k : Nat) : (moveMp k s).mp = 0 := by rw [moveMp_mp, hlen, Nat.mod_one]
  exact ⟨⟨_, exec_incrementPointer h, hzero 1⟩, ⟨_, exec_decrementPointer h, hzero _⟩⟩

/-- Settles O15: the frame is that of the end of a step, and the new MP is the same on every tape of this length. -/
theorem pointerFrame : Obligations.PointerFrame := by
  unfold Obligations.PointerFrame
  intro i s hi
  obtain ⟨f, hexec⟩ := exec_pointer hi
  exact ⟨endStep { s with mp := f s.tapeLen s.mp }, hexec s, rfl, fun _ => rfl, rfl, rfl,
    fun tape' => hexec { s with tape := tape' }⟩
end

section
/-! SUPPORT. The cell instructions as one addition to the current cell (R190, R195): what an addition writes, what additions in
a row add up to, and the four statements about them. -/

namespace Sys2Proof.Machine

/-- A write of the value that stands there changes nothing. -/
theorem Memory.write_read_self (m : Memory) (a : Nat) (h : Memory.wf m = true) :
    Memory.write m a (Memory.read m a) = m := by
  refine Store.eq_of_read_eq _ m (Memory.wf_write m a _ h) h fun b => ?_
  by_cases hb : b = a
  · rw [hb]; exact Memory.read_write_self m a _ h
  · exact Memory.read_write_of_ne m _ hb

/-- Of two writes to one cell the second stands. -/
theorem Memory.write_write_self (m : Memory) (a : Nat) (v v' : Byte) (h : Memory.wf m = true) :
    Memory.write (Memory.write m a v) a v' = Memory.write m a v' := by
  have hv : Memory.wf (Memory.write m a v) = true := Memory.wf_write m a v h
  refine Store.eq_of_read_eq _ _ (Memory.wf_write _ a v' hv) (Memory.wf_write m a v' h) fun b => ?_
  by_cases hb : b = a
  · rw [hb]; exact (Memory.read_write_self _ a v' hv).trans (Memory.read_write_self m a v' h).symm
  · calc Memory.read (Memory.write (Memory.write m a v) a v') b
        = Memory.read (Memory.write m a v) b := Memory.read_write_of_ne _ v' hb
      _ = Memory.read m b := Memory.read_write_of_ne m v hb
      _ = Memory.read (Memory.write m a v') b := (Memory.read_write_of_ne m v' hb).symm

variable {s : State}

/-- A step that adds `d` to the current cell, modulo 256 (R31). -/
def addCell (d : Byte) (s : State) : State := endStep (setCell (s.cell + d) s)

@[simp] theorem addCell_mp (d : Byte) (s : State) : (addCell d s).mp = s.mp := rfl
@[simp] theorem addCell_tapeLen (d : Byte) (s : State) : (addCell d s).tapeLen = s.tapeLen := rfl
@[simp] theorem addCell_tape (d : Byte) (s : State) :
    (addCell d s).tape = Memory.write s.tape s.mp (s.cell + d) := rfl

/-- Only the tape is written before the end of the step. -/
theorem addCell_eq_endStep (d : Byte) (s : State) : addCell d s = endStep { s with tape := (addCell d s).tape } := rfl

theorem exec_incrementValue (h : s.mp < s.tapeLen) : exec .incrementValue s = .next (addCell 1#8 s) :=
  withCell_onTape h fun v => .next (endStep (setCell (v + 1#8) s))

theorem exec_decrementValue (h : s.mp < s.tapeLen) : exec .decrementValue s = .next (addCell 255#8 s) :=
  withCell_onTape h fun v => .next (endStep (setCell (v + 255#8) s))

/-- A cell instruction that answers a next state has added something to the current cell. -/
theorem exec_value_cases {i : Instr} {t : State} (hi : i = .incrementValue ∨ i = .decrementValue)
    (h : exec i s = .next t) : ∃ d, t = addCell d s := by
  rcases hi with rfl | rfl
  · exact ⟨1#8, (execIncrementValue_cases h).2⟩
  · exact ⟨255#8, (execDecrementValue_cases h).2⟩

theorem addCell_cell (hwf : Memory.wf s.tape = true) (d : Byte) : (addCell d s).cell = s.cell + d :=
  Memory.read_write_self _ _ _ hwf

theorem toNat_addCell_cell (hwf : Memory.wf s.tape = true) (d : Byte) :
    (addCell d s).cell.toNat = (s.cell.toNat + d.toNat) % 256 := by
  rw [addCell_cell hwf, BitVec.toNat_add]

theorem read_addCell_of_ne (d : Byte) {a : Nat} (ha : a ≠ s.mp) :
    Memory.read (addCell d s).tape a = Memory.read s.tape a :=
  Memory.read_write_of_ne _ _ ha

theorem wf_addCell_tape (hwf : Memory.wf s.tape = true) (d : Byte) : Memory.wf (addCell d s).tape = true :=
  Memory.wf_write _ _ _ hwf

/-- Adding a byte that is 0 (so a whole multiple of 256) to the current cell leaves the tape as it is. -/
theorem write_cell_add_zero (hwf : Memory.wf s.tape = true) {d : Byte} (hd : d = 0#8) :
    Memory.write s.tape s.mp (s.cell + d) = s.tape := by
  rw [hd, BitVec.add_zero]
  exact Memory.write_read_self _ _ hwf

/-- `n` executions of an instruction that adds `d` to the current cell add `n * d` to it. -/
theorem repeatExec_of_adds {i : Instr} {d : Byte}
    (hadd : ∀ u : State, u.mp < u.tapeLen → exec i u = .next (addCell d u)) (n : Nat) :
    ∀ s : State, s.mp < s.tapeLen → Memory.wf s.tape = true →
      ∃ t, repeatExec i n s = .next t ∧ t.tape = Memory.write s.tape s.mp (s.cell + BitVec.ofNat 8 n * d) := by
  induction n with
  | zero => exact fun s _ hwf => ⟨s, rfl, (write_cell_add_zero hwf BitVec.zero_mul).symm⟩
  | succ n ih =>
    intro s h hwf
    obtain ⟨t, ht, htape⟩ := ih (addCell d s) h (wf_addCell_tape hwf d)
    have hsum : s.cell + d + BitVec.ofNat 8 n * d = s.cell + BitVec.ofNat 8 (n + 1) * d := by
      rw [BitVec.ofNat_add, BitVec.add_mul, BitVec.one_mul, BitVec.add_assoc, BitVec.add_comm d]
    refine ⟨t, by rw [repeatExec, hadd s h, andThen_next, ht], ?_⟩
    rw [htape, addCell_cell hwf, addCell_tape, addCell_mp, Memory.write_write_self _ _ _ _ hwf, hsum]

/-- 256 executions of it restore the tape (R197). -/
theorem repeatExec_256_of_adds {i : Instr} {d : Byte}
    (hadd : ∀ u : State, u.mp < u.tapeLen → exec i u = .next (addCell d u))
    (h : s.mp < s.tapeLen) (hwf : Memory.wf s.tape = true) :
    ∃ t, repeatExec i 256 s = .next t ∧ t.tape = s.tape := by
  obtain ⟨t, ht, htape⟩ := repeatExec_of_adds hadd 256 s h hwf
  exact ⟨t, ht, htape.trans (write_cell_add_zero hwf BitVec.zero_mul)⟩

/-- Two instructions that add opposite values undo each other (R197). -/
theorem andThen_of_opposite_adds {i j : Instr} {d e : Byte}
    (hi : ∀ u : State, u.mp < u.tapeLen → exec i u = .next (addCell d u))
    (hj : ∀ u : State, u.mp < u.tapeLen → exec j u = .next (addCell e u)) (hde : d + e = 0#8)
    (h : s.mp < s.tapeLen) (hwf : Memory.wf s.tape = true) :
    ∃ t, andThen (exec i s) (exec j) = .next t ∧ t.tape = s.tape := by
  refine ⟨addCell e (addCell d s), by rw [hi s h, andThen_next, hj (addCell d s) h], ?_⟩
  rw [addCell_tape, addCell_cell hwf, addCell_tape, addCell_mp, Memory.write_write_self _ _ _ _ hwf,
    BitVec.add_assoc, write_cell_add_zero hwf hde]

end Sys2Proof.Machine

open Sys2Proof Sys2Proof.Machine

/-- Settles O18: 1 and 255 are opposite modulo 256, and 256 additions of either add a multiple of 256. -/
theorem cellRoundTrip : Obligations.CellRoundTrip := by
  unfold Obligations.CellRoundTrip
  intro s h hwf
  have hinc (u : State) : u.mp < u.tapeLen → exec .incrementValue u = .next (addCell 1#8 u) := exec_incrementValue
  have hdec (u : State) : u.mp < u.tapeLen → exec .decrementValue u = .next (addCell 255#8 u) := exec_decrementValue
  exact ⟨andThen_of_opposite_adds hinc hdec rfl h hwf, andThen_of_opposite_adds hdec hinc rfl h hwf,
    repeatExec_256_of_adds hinc h hwf, repeatExec_256_of_adds hdec h hwf⟩

/-- Settles O16: on the tape IncrementValue adds 1 to the current cell. -/
theorem incrementValueWraps : Obligations.IncrementValueWraps := by
  unfold Obligations.IncrementValueWraps
  exact ⟨decodeChar_encodeChar .incrementValue, decodeCode_encodeCode .incrementValue, fun s h hwf =>
    ⟨addCell 1#8 s, exec_incrementValue h, toNat_addCell_cell hwf 1#8, fun _ => read_addCell_of_ne 1#8,
      addCell_eq_endStep 1#8 s⟩⟩

/-- Settles O17: on the tape DecrementValue adds 255 to the current cell. -/
theorem decrementValueWraps : Obligations.DecrementValueWraps := by
  unfold Obligations.DecrementValueWraps
  exact ⟨decodeChar_encodeChar .decrementValue, decodeCode_encodeCode .decrementValue, fun s h hwf =>
    ⟨addCell 255#8 s, exec_decrementValue h, toNat_addCell_cell hwf 255#8, fun _ => read_addCell_of_ne 255#8,
      addCell_eq_endStep 255#8 s⟩⟩

/-- Settles O19: whatever was added, an addition writes the current cell and ends the step. -/
theorem cellFrame : Obligations.CellFrame := by
  unfold Obligations.CellFrame
  intro i s t hi h
  obtain ⟨d, rfl⟩ := exec_value_cases hi h
  exact ⟨addCell_eq_endStep d s, rfl, rfl, fun _ => read_addCell_of_ne d⟩
end

section
/-! SUPPORT. The I/O instructions answered and unanswered (R201 to R206, R210, R215): what an answer at hand does, what a step
waits in, and how long; and the four statements about them. -/

namespace Sys2Proof.Machine

variable {s s0 : State}

/-! ### No answer in this transition -/

theorem execInputValue_silent (ht : takeInput s = (none, s0)) :
    exec .inputValue s = .next { s0 with ioWait := .input } := by
  simp only [exec, execInputValue, ht]

theorem execOutputValue_silent (ht : takeOutput s = (none, s0)) :
    exec .outputValue s = .next { s0 with ioWait := .output } := by
  simp only [exec, execOutputValue, ht]

/-! ### The answer at hand -/

/-- On the tape OutputValue emits the current cell whatever the answer (R202); out of a wait IO_WAIT was 0 already. -/
theorem completeOutput_onTape (hm : s.mp < s.tapeLen) (hi : s.ioWait = .idle) (r : OutRsp) :
    completeOutput r s = .next (endStep { s with env := { s.env with emitted := s.env.emitted ++ [s.cell] } }) := by
  rw [completeOutput, withCell_onTape hm, endOutput, ← hi]

theorem acceptedByte_of_le {hw : Params} {b : Byte} (hb : b.toNat ≤ hw.inputAcceptMax) :
    acceptedByte hw (.ok b) = some b := if_pos hb

theorem acceptedByte_of_gt {hw : Params} {b : Byte} (hb : hw.inputAcceptMax < b.toNat) :
    acceptedByte hw (.ok b) = none := if_neg (Nat.not_le.2 hb)

theorem acceptedByte_err (hw : Params) : acceptedByte hw .err = none := rfl

/-- The tape that an input answer leaves: an accepted byte is written to the current cell, and nothing else (R205, R215). -/
def tapeAfterInput (r : InRsp) (s : State) : Memory :=
  (acceptedByte s.hw r).elim s.tape (Memory.write s.tape s.mp)

theorem tapeAfterInput_accepted {r : InRsp} {b : Byte} (hb : acceptedByte s.hw r = some b) :
    tapeAfterInput r s = Memory.write s.tape s.mp b := by rw [tapeAfterInput, hb, Option.elim_some]

theorem tapeAfterInput_rejected {r : InRsp} (hr : acceptedByte s.hw r = none) : tapeAfterInput r s = s.tape := by
  rw [tapeAfterInput, hr, Option.elim_none]

theorem read_tapeAfterInput_self {r : InRsp} {b : Byte} (hwf : Memory.wf s.tape = true)
    (hb : acceptedByte s.hw r = some b) : Memory.read (tapeAfterInput r s) s.mp = b := by
  rw [tapeAfterInput_accepted hb, Memory.read_write_self _ _ _ hwf]

theorem read_tapeAfterInput_of_ne (r : InRsp) {a : Nat} (ha : a ≠ s.mp) :
    Memory.read (tapeAfterInput r s) a = Memory.read s.tape a := by
  cases hr : acceptedByte s.hw r with
  | some b => rw [tapeAfterInput_accepted hr, Memory.read_write_of_ne _ _ ha]
  | none => rw [tapeAfterInput_rejected hr]

/-- On the tape InputValue consumes the answer and writes that tape; out of a wait IO_WAIT was 0 already. -/
theorem completeInput_onTape (hm : s.mp < s.tapeLen) (hi : s.ioWait = .idle) (r : InRsp) :
    completeInput r s = .next (endStep
      { s with tape := tapeAfterInput r s, env := { s.env with consumed := s.env.consumed ++ [r] } }) := by
  rw [completeInput, withCell_onTape hm]
  cases hr : acceptedByte s.hw r with
  | some b => simp only [tapeAfterInput_accepted hr, setCell, endInput, hi]
  | none => simp only [tapeAfterInput_rejected hr, endInput, hi]

theorem execInputValue_onTape {r : InRsp} {q : List (Option InRsp)} (hm : s.mp < s.tapeLen) (hi : s.ioWait = .idle)
    (hq : s.env.inputs = some r :: q) : exec .inputValue s = .next (endStep
      { s with tape := tapeAfterInput r s, env := { s.env with inputs := q, consumed := s.env.consumed ++ [r] } }) :=
  (execInputValue_answered hq).trans (completeInput_onTape (s := { s with env := { s.env with inputs := q } }) hm hi r)

/-! ### An answer that never comes -/

/-- A step waits, no answer to it is queued, and the host only steps (log 2, log 4). -/
structure Unanswered (s : State) : Prop where
  cmds : s.env.cmds = []
  waits : s.ioWait = .input ∧ s.env.inputs = [] ∨ s.ioWait = .output ∧ s.env.outputs = []

/-- An answer to the host leaves the wait and the queues as they are. -/
theorem Unanswered.answer (h : Unanswered s) (r : Resp) : Unanswered (answer r s) := { h with }

/-- The host moves, with a STEP, and that is refused during a wait (R150). -/
theorem Unanswered.step (h : Unanswered s) : step s = .next (Machine.answer .refused s) := by
  have hmove : nextMove s = (.cmd .step, s) := by
    rcases h.waits with ⟨hw, hq⟩ | ⟨hw, hq⟩
    · exact (nextMove_inputSilent hw (takeInput_nil hq)).trans (takeCmd_nil h.cmds)
    · exact (nextMove_outputSilent hw (takeOutput_nil hq)).trans (takeCmd_nil h.cmds)
  have hwait : s.ioWait ≠ .idle := by rcases h.waits with ⟨hw, -⟩ | ⟨hw, -⟩ <;> simp [hw]
  exact (step_of_cmd hmove).trans (doStep_refused fun hacc => hwait (stepAccepted_iff.1 hacc).2)

/-- So it goes on for ever: of the refusals in a row the last one stands. -/
theorem Unanswered.runSteps_succ (h : Unanswered s) (n : Nat) :
    runSteps (n + 1) s = .next (Machine.answer .refused s) := by
  induction n generalizing s with
  | zero => rw [Machine.runSteps_succ, h.step, andThen_next, runSteps_zero]
  | succ n ih =>
    calc runSteps (n + 1 + 1) s
        = runSteps (n + 1) (Machine.answer .refused s) := by rw [Machine.runSteps_succ, h.step, andThen_next]
      _ = .next (Machine.answer .refused (Machine.answer .refused s)) := ih (h.answer .refused)
      _ = .next (Machine.answer .refused s) := rfl

end Sys2Proof.Machine

open Sys2Proof Sys2Proof.Machine

/-- Settles O25: by induction on the number of steps, each of which is a refused STEP. -/
theorem unansweredStepIsStuck : Obligations.UnansweredStepIsStuck := by
  unfold Obligations.UnansweredStepIsStuck
  exact fun s n hc hw => (Unanswered.mk hc hw).runSteps_succ n

/-- Settles O21: with an answer the step completes on the tape; an empty queue and a silence are the two ways to get none. -/
theorem outputValueEmitsTheCell : Obligations.OutputValueEmitsTheCell := by
  unfold Obligations.OutputValueEmitsTheCell
  refine ⟨decodeChar_encodeChar .outputValue, decodeCode_encodeCode .outputValue, ?answered, ?silent⟩
  case answered =>
    intro s r q hm hi hq
    rw [execOutputValue_answered hq]
    exact completeOutput_onTape (s := { s with env := { s.env with outputs := q } }) hm hi r
  case silent =>
    intro s hnone
    rcases hq : s.env.outputs with _ | ⟨_ | r, q⟩
    · exact ⟨_, execOutputValue_silent (takeOutput_nil hq), rfl, rfl⟩
    · exact ⟨_, execOutputValue_silent (takeOutput_cons hq), rfl, rfl⟩
    · simp [hq] at hnone

/-- Settles O22: all that depends on the answer is the tape it leaves and its entry in the record. -/
theorem inputValueWritesAcceptedBytes : Obligations.InputValueWritesAcceptedBytes := by
  unfold Obligations.InputValueWritesAcceptedBytes
  refine ⟨decodeChar_encodeChar .inputValue, decodeCode_encodeCode .inputValue, fun s r q hm hwf hi hq => ?_⟩
  refine ⟨_, execInputValue_onTape hm hi hq, rfl, fun _ => read_tapeAfterInput_of_ne r, ?accepted, ?tooLarge, ?err⟩
  case accepted =>
    rintro b rfl hb
    exact read_tapeAfterInput_self hwf (acceptedByte_of_le hb)
  case tooLarge =>
    rintro b rfl hb
    exact tapeAfterInput_rejected (acceptedByte_of_gt hb)
  case err =>
    rintro rfl
    exact tapeAfterInput_rejected (acceptedByte_err s.hw)

/-- Settles O23: an empty queue and a queued silence alike leave the draw taken and the wait begun. -/
theorem ioInstructionsWait : Obligations.IoInstructionsWait := by
  unfold Obligations.IoInstructionsWait
  exact ⟨fun _ h => execInputValue_silent (takeInput_nil h), fun _ _ h => execInputValue_silent (takeInput_cons h),
    fun _ h => execOutputValue_silent (takeOutput_nil h), fun _ _ h => execOutputValue_silent (takeOutput_cons h)⟩
end

section
/-! SUPPORT. Bracket matching by heights (44_control.md section 2). The height at an index is how many more `[` than `]` stand
before it. MatchFwd and MatchBwd both find the pairs of brackets between which no height falls back to the one outside, so
each is the other's inverse; and the three statements about them. -/

namespace Sys2Proof.Machine

open Sys2Proof

variable {P : Nat → Code} {n i j k : Nat}

/-- One entry's effect on the height: up at a `[`, down at a `]`. -/
def rise (c : Code) : Int := if c = codeJF then 1 else if c = codeJB then -1 else 0

/-- How many more `[` than `]` stand in the entries `0 .. m-1`. -/
def height (P : Nat → Code) : Nat → Int
  | 0 => 0
  | m + 1 => height P m + rise (P m)

theorem height_succ (P : Nat → Code) (m : Nat) : height P (m + 1) = height P m + rise (P m) := rfl

theorem rise_codeJF : rise codeJF = 1 := rfl

theorem rise_codeJB : rise codeJB = -1 := rfl

theorem rise_of_noBracket {c : Code} (hf : c ≠ codeJF) (hb : c ≠ codeJB) : rise c = 0 := by simp [rise, hf, hb]

theorem height_succ_of_opens (hp : P i = codeJF) : height P (i + 1) = height P i + 1 := by
  rw [height_succ, hp, rise_codeJF]

theorem height_succ_of_closes (hp : P j = codeJB) : height P j = height P (j + 1) + 1 := by
  rw [height_succ, hp, rise_codeJB]; omega

/-- Only a `[` lets the height rise. -/
theorem opens_of_height_lt (h : height P i < height P (i + 1)) : P i = codeJF := by
  rw [height_succ, rise] at h
  split_ifs at h with hf
  · exact hf
  all_goals omega

/-- Only a `]` lets it fall. -/
theorem closes_of_height_lt (h : height P (j + 1) < height P j) : P j = codeJB := by
  rw [height_succ, rise] at h
  split_ifs at h with _ hb
  · omega
  · exact hb
  · omega

/-- While the depth counter has not returned to 0, it follows the height up and down (R240, R245). -/
theorem depthFwd_eq {c : Code} {depth : Nat} (h : 0 < depth) : (depthFwd c depth : Int) = depth + rise c := by
  unfold depthFwd rise; split_ifs <;> omega

/-- The backward counter follows the height the other way (R241, R245). -/
theorem depthBwd_eq {c : Code} {depth : Nat} (h : 0 < depth) : (depthBwd c depth : Int) = depth - rise c := by
  by_cases hb : c = codeJB
  · rw [depthBwd, if_pos hb, hb, rise_codeJB]; omega
  · unfold depthBwd rise; simp only [if_neg hb]; split_ifs <;> omega

/-- A forward counter that shows the height at `k` above `b` shows the next one after the entry `k`. -/
theorem depthFwd_height {b : Int} {depth : Nat} (hpos : 0 < depth) (hd : (depth : Int) = height P k - b) :
    (depthFwd (P k) depth : Int) = height P (k + 1) - b := by
  rw [depthFwd_eq hpos, height_succ, hd]; omega

/-- A backward counter that shows the height after the entry `k` above `b` shows the one before it next. -/
theorem depthBwd_height {b : Int} {depth : Nat} (hpos : 0 < depth) (hd : (depth : Int) = height P (k + 1) - b) :
    (depthBwd (P k) depth : Int) = height P k - b := by
  rw [depthBwd_eq hpos, hd, height_succ]; omega

/-- The heights at the indexes `i .. j` all lie above `b`. -/
def Above (P : Nat → Code) (b : Int) (i j : Nat) : Prop := ∀ m, i ≤ m → m ≤ j → b < height P m

theorem above_self {b : Int} : Above P b i i ↔ b < height P i :=
  ⟨fun h => h i le_rfl le_rfl, fun h _ him hmi => le_antisymm hmi him ▸ h⟩

/-- The first index may be looked at apart. -/
theorem above_first {b : Int} (hij : i ≤ j) : Above P b i j ↔ b < height P i ∧ Above P b (i + 1) j := by
  refine ⟨fun h => ⟨h i le_rfl hij, fun m hm => h m (by omega)⟩, fun ⟨hi, h⟩ m him hmj => ?_⟩
  rcases him.eq_or_lt with rfl | hlt
  · exact hi
  · exact h m hlt hmj

/-- And so may the last. -/
theorem above_last {b : Int} (hij : i ≤ j + 1) : Above P b i (j + 1) ↔ Above P b i j ∧ b < height P (j + 1) := by
  refine ⟨fun h => ⟨fun m him hmj => h m him (by omega), h (j + 1) hij le_rfl⟩, fun ⟨h, hj⟩ m him hmj => ?_⟩
  rcases hmj.eq_or_lt with rfl | hlt
  · exact hj
  · exact h m him (by omega)

/-! ### The scans -/

/-- The forward scan, its counter showing the height above `b`, ends at the first entry after which the height is `b`. -/
theorem scanFwd_eq_some_iff {b : Int} {left depth : Nat} (hpos : 0 < depth) (hd : (depth : Int) = height P k - b) :
    scanFwd P left k depth = some j ↔ k ≤ j ∧ j < k + left ∧ height P (j + 1) = b ∧ Above P b k j := by
  induction left generalizing k depth with
  | zero => exact ⟨nofun, fun ⟨hkj, hlt, _⟩ => absurd hlt (by omega)⟩
  | succ left ih =>
    have hnext : (depthFwd (P k) depth : Int) = height P (k + 1) - b := depthFwd_height hpos hd
    rw [scanFwd]
    split
    next h0 =>
      have hkb : height P (k + 1) = b := by omega
      have hk : b < height P k := by omega
      constructor
      · rintro ⟨⟩
        exact ⟨le_rfl, by omega, hkb, above_self.2 hk⟩
      · rintro ⟨hkj, -, -, hab⟩
        rcases hkj.eq_or_lt with rfl | hlt
        · rfl
        · exact absurd (hab (k + 1) (by omega) hlt) (by omega)
    next h0 =>
      rw [ih (Nat.pos_of_ne_zero h0) hnext]
      constructor
      · rintro ⟨hkj, hlt, hj, hab⟩
        exact ⟨by omega, by omega, hj, (above_first (by omega)).2 ⟨by omega, hab⟩⟩
      · rintro ⟨hkj, hlt, hj, hab⟩
        have hne : k ≠ j := by rintro rfl; omega
        exact ⟨by omega, by omega, hj, ((above_first hkj).1 hab).2⟩

/-- A forward scan that ends nowhere saw every height above `b`. -/
theorem above_of_scanFwd_eq_none {b : Int} {left depth : Nat} (hpos : 0 < depth) (hd : (depth : Int) = height P k - b)
    (h : scanFwd P left k depth = none) : Above P b k (k + left) := by
  induction left generalizing k depth with
  | zero => exact above_self.2 (by omega)
  | succ left ih =>
    have hnext : (depthFwd (P k) depth : Int) = height P (k + 1) - b := depthFwd_height hpos hd
    rw [scanFwd] at h
    split at h
    next => cases h
    next h0 =>
      have hrest := ih (Nat.pos_of_ne_zero h0) hnext h
      rw [Nat.add_right_comm] at hrest
      exact (above_first (by omega)).2 ⟨by omega, hrest⟩

/-- The backward scan, its counter showing the height above `b`, ends at the first entry before which the height is `b`. -/
theorem scanBwd_eq_some_iff {b : Int} {depth : Nat} (hpos : 0 < depth) (hd : (depth : Int) = height P (k + 1) - b) :
    scanBwd P k depth = some i ↔ i ≤ k ∧ height P i = b ∧ Above P b (i + 1) (k + 1) := by
  induction k generalizing depth with
  | zero =>
    have hnext := depthBwd_height hpos hd
    rw [scanBwd]
    split
    next h0 =>
      constructor
      · rintro ⟨⟩
        exact ⟨le_rfl, by omega, above_self.2 (by omega)⟩
      · rintro ⟨hi, -, -⟩
        rw [Nat.le_zero.1 hi]
    next h0 =>
      refine ⟨nofun, ?_⟩
      rintro ⟨hi, hib, -⟩
      rw [Nat.le_zero.1 hi] at hib
      omega
  | succ k ih =>
    have hnext := depthBwd_height hpos hd
    rw [scanBwd]
    split
    next h0 =>
      have hkb : height P (k + 1) = b := by omega
      constructor
      · rintro ⟨⟩
        exact ⟨le_rfl, hkb, above_self.2 (by omega)⟩
      · rintro ⟨hi, -, hab⟩
        rcases hi.eq_or_lt with rfl | hlt
        · rfl
        · exact absurd (hab (k + 1) (by omega) (by omega)) (by omega)
    next h0 =>
      rw [ih (Nat.pos_of_ne_zero h0) hnext]
      constructor
      · rintro ⟨hi, hib, hab⟩
        exact ⟨by omega, hib, (above_last (by omega)).2 ⟨hab, by omega⟩⟩
      · rintro ⟨hi, hib, hab⟩
        have hne : i ≠ k + 1 := by rintro rfl; omega
        exact ⟨by omega, hib, ((above_last (by omega)).1 hab).1⟩

/-! ### Pairs of brackets -/

/-- The entries `i` and `j` are a pair of brackets: the height after `j` is the one before `i`, and all between are above. -/
structure Paired (P : Nat → Code) (i j : Nat) : Prop where
  lt : i < j
  level : height P (j + 1) = height P i
  above : Above P (height P i) (i + 1) j

/-- The height rises at the first entry of a pair, so it is a `[`. -/
theorem Paired.opens (h : Paired P i j) : P i = codeJF :=
  opens_of_height_lt (h.above (i + 1) le_rfl h.lt)

/-- The height falls at the second entry of a pair, so it is a `]`. -/
theorem Paired.closes (h : Paired P i j) : P j = codeJB :=
  closes_of_height_lt (h.level.trans_lt (h.above j h.lt le_rfl))

/-- The forward scan from a `[` counts 1 at it and goes on behind it. -/
theorem matchFwd_eq_scan (hi : i < n) (hp : P i = codeJF) : matchFwd P n i = scanFwd P (n - (i + 1)) (i + 1) 1 := by
  have hleft : n - i = n - (i + 1) + 1 := by omega
  have hdepth : depthFwd (P i) 0 = 1 := by rw [depthFwd, if_pos hp]
  rw [matchFwd, if_pos ⟨hi, hp⟩, hleft, scanFwd, hdepth, if_neg (by omega)]

/-- MatchFwd finds exactly the partner of a `[` inside the program. -/
theorem matchFwd_eq_some_iff : matchFwd P n i = some j ↔ j < n ∧ Paired P i j := by
  by_cases h : i < n ∧ P i = codeJF
  · obtain ⟨hi, hp⟩ := h
    rw [matchFwd_eq_scan hi hp, scanFwd_eq_some_iff (b := height P i) one_pos (by rw [height_succ_of_opens hp]; omega)]
    constructor
    · rintro ⟨hij, hjn, hlevel, hab⟩
      exact ⟨by omega, hij, hlevel, hab⟩
    · rintro ⟨hjn, hij, hlevel, hab⟩
      exact ⟨hij, by omega, hlevel, hab⟩
  · rw [matchFwd, if_neg h]
    exact ⟨nofun, fun ⟨hjn, hpair⟩ => absurd ⟨hpair.lt.trans hjn, hpair.opens⟩ h⟩

/-- A `[` has no match exactly when the height stays above the one before it up to the program's end. -/
theorem matchFwd_eq_none_iff (hi : i < n) : P i = codeJF ∧ matchFwd P n i = none ↔ Above P (height P i) (i + 1) n := by
  constructor
  · rintro ⟨hp, hnone⟩
    rw [matchFwd_eq_scan hi hp] at hnone
    have hab := above_of_scanFwd_eq_none (b := height P i) one_pos (by rw [height_succ_of_opens hp]; omega) hnone
    rwa [Nat.add_sub_cancel' hi] at hab
  · intro hab
    refine ⟨opens_of_height_lt (hab (i + 1) le_rfl hi), Option.eq_none_iff_forall_ne_some.2 fun j hj => ?_⟩
    obtain ⟨hjn, hpair⟩ := matchFwd_eq_some_iff.1 hj
    exact (hab (j + 1) (Nat.succ_le_succ hpair.lt.le) hjn).ne hpair.level.symm

/-- The backward scan from a `]` counts 1 at it and goes on before it, where there is a before. -/
theorem matchBwd_eq_scan (hk : k + 1 < n) (hp : P (k + 1) = codeJB) : matchBwd P n (k + 1) = scanBwd P k 1 := by
  have hdepth : depthBwd (P (k + 1)) 0 = 1 := by rw [depthBwd, if_pos hp]
  rw [matchBwd, if_pos ⟨hk, hp⟩, scanBwd, hdepth, if_neg (by omega)]

/-- MatchBwd finds exactly the partner of a `]` inside the program. -/
theorem matchBwd_eq_some_iff : matchBwd P n j = some i ↔ j < n ∧ Paired P i j := by
  cases j with
  | zero => exact ⟨fun h => absurd (matchBwd_bounds h).1 (by omega), fun ⟨_, hpair⟩ => absurd hpair.lt (by omega)⟩
  | succ k =>
    by_cases h : k + 1 < n ∧ P (k + 1) = codeJB
    · obtain ⟨hk, hp⟩ := h
      have hlast := height_succ_of_closes hp
      rw [matchBwd_eq_scan hk hp, scanBwd_eq_some_iff (b := height P (k + 1 + 1)) one_pos (by omega)]
      constructor
      · rintro ⟨hik, hlevel, hab⟩
        exact ⟨hk, by omega, hlevel.symm, hlevel ▸ hab⟩
      · rintro ⟨-, hik, hlevel, hab⟩
        exact ⟨by omega, hlevel.symm, hlevel ▸ hab⟩
    · rw [matchBwd, if_neg h]
      exact ⟨nofun, fun ⟨hk, hpair⟩ => absurd ⟨hk, hpair.closes⟩ h⟩

/-- For every program MatchFwd and MatchBwd are each other's inverse. -/
theorem matchFwd_eq_some_iff_matchBwd : matchFwd P n i = some j ↔ matchBwd P n j = some i :=
  matchFwd_eq_some_iff.trans matchBwd_eq_some_iff.symm

/-! ### The count of brackets -/

/-- The entries `i .. j` hold as many more `[` than `]` as the height rises over them. -/
theorem countCode_sub_countCode (P : Nat → Code) (hij : i ≤ j + 1) :
    (countCode P codeJF i j : Int) - countCode P codeJB i j = height P (j + 1) - height P i := by
  obtain ⟨len, hlen⟩ := Nat.exists_eq_add_of_le hij
  unfold countCode
  rw [hlen, Nat.add_sub_cancel_left]
  clear hlen hij
  induction len with
  | zero => simp
  | succ len ih =>
    rw [List.range'_concat, List.countP_append, List.countP_append, ← Nat.add_assoc, height_succ, rise, Nat.one_mul]
    simp only [List.countP_singleton, decide_eq_true_eq]
    split_ifs with hf hb
    · rw [hf] at hb; cases hb
    all_goals push_cast; omega

theorem countCode_eq_iff (P : Nat → Code) (hij : i ≤ j + 1) :
    countCode P codeJF i j = countCode P codeJB i j ↔ height P (j + 1) = height P i := by
  have := countCode_sub_countCode P hij
  omega

theorem countCode_codeJB_lt_iff (P : Nat → Code) (hij : i ≤ j + 1) :
    countCode P codeJB i j < countCode P codeJF i j ↔ height P i < height P (j + 1) := by
  have := countCode_sub_countCode P hij
  omega

theorem countCode_codeJF_lt_iff (P : Nat → Code) (hij : i ≤ j + 1) :
    countCode P codeJF i j < countCode P codeJB i j ↔ height P (j + 1) < height P i := by
  have := countCode_sub_countCode P hij
  omega

end Sys2Proof.Machine

open Sys2Proof Sys2Proof.Machine

/-- Settles O34: a match found by either scan is a pair of brackets, and the other scan finds that pair too. -/
theorem bracketsPairUp : Obligations.BracketsPairUp := by
  unfold Obligations.BracketsPairUp
  refine fun P n hbal => ⟨fun i hi hp => ?_, fun j hj hp => ?_⟩
  · obtain ⟨j, hmatch⟩ := hbal.fwd hi hp
    obtain ⟨hjn, hpair⟩ := matchFwd_eq_some_iff.1 hmatch
    exact ⟨j, hmatch, hpair.lt, hjn, hpair.closes, matchFwd_eq_some_iff_matchBwd.1 hmatch⟩
  · obtain ⟨i, hmatch⟩ := hbal.bwd hj hp
    obtain ⟨-, hpair⟩ := matchBwd_eq_some_iff.1 hmatch
    exact ⟨i, hmatch, hpair.lt, hpair.opens, matchFwd_eq_some_iff_matchBwd.2 hmatch⟩

/-- Settles O32: the prefixes of a pair are the heights above the one before it. -/
theorem matchFwdIsTheFirstBalance : Obligations.MatchFwdIsTheFirstBalance := by
  unfold Obligations.MatchFwdIsTheFirstBalance
  intro P n i j
  rw [matchFwd_eq_some_iff]
  constructor
  · rintro ⟨hjn, hpair⟩
    have hij := hpair.lt
    refine ⟨hpair.opens, hij, hjn, (countCode_eq_iff P (by omega)).2 hpair.level, fun k hik hkj => ?_⟩
    exact (countCode_codeJB_lt_iff P (by omega)).2 (hpair.above (k + 1) (by omega) hkj)
  · rintro ⟨-, hij, hjn, hcount, hprefix⟩
    refine ⟨hjn, hij, (countCode_eq_iff P (by omega)).1 hcount, fun m him hmj => ?_⟩
    obtain ⟨k, rfl⟩ : ∃ k, m = k + 1 := ⟨m - 1, by omega⟩
    exact (countCode_codeJB_lt_iff P (by omega)).1 (hprefix k (by omega) hmj)

/-- Settles O33: the suffixes of a pair are the heights above the one after it, which is the one before it. -/
theorem matchBwdIsTheFirstBalance : Obligations.MatchBwdIsTheFirstBalance := by
  unfold Obligations.MatchBwdIsTheFirstBalance
  intro P n i j
  rw [matchBwd_eq_some_iff]
  constructor
  · rintro ⟨hjn, hpair⟩
    have hij := hpair.lt
    refine ⟨hpair.closes, hij, hjn, (countCode_eq_iff P (by omega)).2 hpair.level, fun k hik hkj => ?_⟩
    rw [countCode_codeJF_lt_iff P (by omega), hpair.level]
    exact hpair.above k hik hkj
  · rintro ⟨-, hij, hjn, hcount, hsuffix⟩
    have hlevel := (countCode_eq_iff P (by omega)).1 hcount
    refine ⟨hjn, hij, hlevel, fun m him hmj => ?_⟩
    rw [← hlevel]
    exact (countCode_codeJF_lt_iff P (by omega)).1 (hsuffix m him hmj)
end

section
/-! SUPPORT. Validate and its one-pass form (R243). The definition names the smallest unmatched bracket. The stack of the one
pass holds the brackets that no match has closed so far, and its other register the first `]` without a partner: of both
together the smallest is the same; and the two statements about them. -/

namespace Sys2Proof.Machine

open Sys2Proof

variable {P : Nat → Code} {n i j k : Nat}

/-! ### The first index of a set -/

/-- The smallest index of a set, None where the set is empty. -/
def IsFirst (S : Set Nat) : Option Nat → Prop
  | none => S = ∅
  | some u => IsLeast S u

theorem IsFirst.unique {S : Set Nat} {a b : Option Nat} (ha : IsFirst S a) (hb : IsFirst S b) : a = b := by
  cases a with
  | none =>
    cases b with
    | none => rfl
    | some v => exact absurd hb.1 (ha ▸ Set.notMem_empty v)
  | some u =>
    cases b with
    | none => exact absurd ha.1 (hb ▸ Set.notMem_empty u)
    | some v => rw [IsLeast.unique ha hb]

/-- R243's min finds the first index of two sets together. -/
theorem IsFirst.minIndex {S T : Set Nat} {a b : Option Nat} (ha : IsFirst S a) (hb : IsFirst T b) :
    IsFirst (S ∪ T) (minIndex a b) := by
  cases a with
  | none => rw [show S = ∅ from ha, Set.empty_union]; exact hb
  | some u =>
    cases b with
    | none => rw [show T = ∅ from hb, Set.union_empty]; exact ha
    | some v => exact IsLeast.union ha hb

theorem isFirst_singleton (k : Nat) : IsFirst {k} (some k) := isLeast_singleton

theorem isFirst_stackMin (l : List Nat) : IsFirst {k | k ∈ l} (stackMin l) := by
  induction l with
  | nil => simp [stackMin, IsFirst]
  | cons k t ih =>
    have hset : {m | m ∈ k :: t} = {k} ∪ {m | m ∈ t} := by ext m; simp
    rw [hset]
    exact (isFirst_singleton k).minIndex ih

/-! ### Unmatched brackets -/

/-- The indexes below `n` of a `[` without a match (R243). -/
def unmatchedJF (P : Nat → Code) (n : Nat) : Set Nat := {i | i < n ∧ P i = codeJF ∧ matchFwd P n i = none}

/-- The indexes below `n` of a `]` without a match. Where the program ends after it makes no difference (R241). -/
def unmatchedJB (P : Nat → Code) (n : Nat) : Set Nat := {j | j < n ∧ P j = codeJB ∧ ∀ i, ¬ Paired P i j}

/-- Up to the program's end the height stays above the one before an unmatched `[`. -/
theorem mem_unmatchedJF : i ∈ unmatchedJF P n ↔ i < n ∧ Above P (height P i) (i + 1) n :=
  and_congr_right fun hi => matchFwd_eq_none_iff hi

theorem matchBwd_eq_none_iff (hj : j < n) : matchBwd P n j = none ↔ ∀ i, ¬ Paired P i j := by
  simp [Option.eq_none_iff_forall_ne_some, matchBwd_eq_some_iff, hj]

theorem unmatchedAt_iff :
    unmatchedAt P n i = true ↔ P i = codeJF ∧ matchFwd P n i = none ∨ P i = codeJB ∧ matchBwd P n i = none := by
  simp [unmatchedAt]

theorem firstUnmatched_eq_some_iff {u : Nat} :
    firstUnmatched P n = some u ↔ u < n ∧ unmatchedAt P n u = true ∧ ∀ i, i < u → unmatchedAt P n i = false := by
  rw [firstUnmatched, List.find?_range_eq_some, List.mem_range, and_left_comm]
  simp only [Bool.not_eq_true']

theorem isFirst_firstUnmatched (P : Nat → Code) (n : Nat) :
    IsFirst {i | i < n ∧ unmatchedAt P n i = true} (firstUnmatched P n) := by
  cases h : firstUnmatched P n with
  | none =>
    rw [firstUnmatched, List.find?_eq_none] at h
    exact Set.eq_empty_of_forall_notMem fun i ⟨hi, hu⟩ => h i (List.mem_range.2 hi) hu
  | some u =>
    obtain ⟨hun, hu, hbelow⟩ := firstUnmatched_eq_some_iff.1 h
    refine ⟨⟨hun, hu⟩, fun i ⟨_, hi⟩ => not_lt.1 fun hiu => ?_⟩
    simp [hbelow i hiu] at hi

theorem unmatched_eq_union (P : Nat → Code) (n : Nat) :
    {i | i < n ∧ unmatchedAt P n i = true} = unmatchedJB P n ∪ unmatchedJF P n := by
  ext i
  rw [Set.mem_union, or_comm]
  simp only [Set.mem_ofPred_eq, unmatchedAt_iff, and_or_left, unmatchedJF, unmatchedJB]
  exact or_congr_right (and_congr_right fun hi => and_congr_right fun _ => matchBwd_eq_none_iff hi)

/-! ### The stack of open brackets -/

/-- The stack of the one pass before index `n`. Empty, it says that no height so far was below the one at `n`. The bracket on
top of it stands one lower than `n`, no height since was as low, and the rest is the stack on which it was pushed. -/
def OpenStack (P : Nat → Code) : Nat → List Nat → Prop
  | n, [] => ∀ m, m ≤ n → height P n ≤ height P m
  | n, k :: t => k < n ∧ height P n = height P k + 1 ∧ Above P (height P k) (k + 1) n ∧ OpenStack P k t

/-- The stack stands as it was where the height comes back to what it was and did not fall below that meanwhile. -/
theorem OpenStack.level {l : List Nat} (h : OpenStack P k l) (hkn : k ≤ n) (hlevel : height P n = height P k)
    (hab : Above P (height P k - 1) k n) : OpenStack P n l := by
  cases l with
  | nil =>
    intro m hmn
    rcases le_total m k with hmk | hkm
    · exact hlevel ▸ h m hmk
    · have := hab m hkm hmn; omega
  | cons k' t =>
    obtain ⟨hk', htop, hup, ht⟩ := h
    refine ⟨by omega, by omega, fun m hm hmn => ?_, ht⟩
    rcases le_total m k with hmk | hkm
    · exact hup m hm hmk
    · have := hab m hkm hmn; omega

/-- A bracket is on the stack exactly when it has no match yet. -/
theorem OpenStack.mem_iff {l : List Nat} (h : OpenStack P n l) : i ∈ l ↔ i ∈ unmatchedJF P n := by
  rw [mem_unmatchedJF]
  induction l generalizing n with
  | nil =>
    refine ⟨nofun, fun ⟨hin, hab⟩ => ?_⟩
    exact absurd (hab n hin le_rfl) (not_lt.2 (h i hin.le))
  | cons k t ih =>
    obtain ⟨hkn, htop, hup, ht⟩ := h
    rw [List.mem_cons, ih ht]
    constructor
    · rintro (rfl | ⟨hik, hab⟩)
      · exact ⟨hkn, hup⟩
      · refine ⟨hik.trans hkn, fun m him hmn => ?_⟩
        rcases le_or_gt m k with hmk | hkm
        · exact hab m him hmk
        · exact (hab k hik le_rfl).trans (hup m hkm hmn)
    · rintro ⟨hin, hab⟩
      rcases lt_trichotomy i k with hik | rfl | hki
      · exact .inr ⟨hik, fun m him hmk => hab m him (by omega)⟩
      · exact .inl rfl
      · have := hup i hki hin.le
        have := hab n hin le_rfl
        omega

/-- A `]` after a stack closes the bracket on top of it. -/
theorem OpenStack.pairs_top {t : List Nat} (h : OpenStack P n (k :: t)) (hp : P n = codeJB) : Paired P k n := by
  obtain ⟨hkn, htop, hup, -⟩ := h
  have := height_succ_of_closes hp
  exact ⟨hkn, by omega, hup⟩

/-- A `]` after an empty stack has no partner. -/
theorem OpenStack.not_paired_of_nil (h : OpenStack P n []) (hp : P n = codeJB) (i : Nat) : ¬ Paired P i n := by
  intro hpair
  have := height_succ_of_closes hp
  have := h i hpair.lt.le
  have := hpair.level
  omega

theorem OpenStack.push {l : List Nat} (h : OpenStack P n l) (hp : P n = codeJF) : OpenStack P (n + 1) (n :: l) := by
  have := height_succ_of_opens hp
  exact ⟨by omega, this, above_self.2 (by omega), h⟩

theorem OpenStack.pop {t : List Nat} (h : OpenStack P n (k :: t)) (hp : P n = codeJB) : OpenStack P (n + 1) t := by
  have hpair := h.pairs_top hp
  obtain ⟨hkn, -, hup, ht⟩ := h
  refine ht.level (by omega) hpair.level fun m hkm hmn => ?_
  rcases hkm.eq_or_lt with rfl | hlt
  · omega
  rcases hmn.eq_or_lt with rfl | hmn
  · have := hpair.level; omega
  · have := hup m hlt (by omega); omega

/-- An unmatched `]` leaves the stack empty. -/
theorem OpenStack.stay_empty (h : OpenStack P n []) (hp : P n = codeJB) : OpenStack P (n + 1) [] := by
  have := height_succ_of_closes hp
  intro m hmn
  rcases hmn.eq_or_lt with rfl | hlt
  · exact le_rfl
  · have := h m (by omega); omega

theorem OpenStack.pass {l : List Nat} (h : OpenStack P n l) (hf : P n ≠ codeJF) (hb : P n ≠ codeJB) :
    OpenStack P (n + 1) l := by
  have hlevel : height P (n + 1) = height P n := by rw [height_succ, rise_of_noBracket hf hb, add_zero]
  exact h.level (by omega) hlevel ((above_last (by omega)).2 ⟨above_self.2 (by omega), by omega⟩)

/-! ### The one pass -/

/-- An entry that is no unmatched `]` adds nothing to them. -/
theorem unmatchedJB_succ_of_not (h : P n = codeJB → ∃ i, Paired P i n) : unmatchedJB P (n + 1) = unmatchedJB P n := by
  ext j
  refine ⟨fun ⟨hj, hp, hnone⟩ => ⟨?_, hp, hnone⟩, fun ⟨hj, hrest⟩ => ⟨by omega, hrest⟩⟩
  refine Nat.lt_of_le_of_ne (Nat.le_of_lt_succ hj) ?_
  rintro rfl
  obtain ⟨i, hi⟩ := h hp
  exact hnone i hi

theorem unmatchedJB_succ (hp : P n = codeJB) (hnone : ∀ i, ¬ Paired P i n) :
    unmatchedJB P (n + 1) = unmatchedJB P n ∪ {n} := by
  ext j
  constructor
  · rintro ⟨hj, hrest⟩
    rcases (Nat.le_of_lt_succ hj).eq_or_lt with rfl | hlt
    · exact .inr rfl
    · exact .inl ⟨hlt, hrest⟩
  · rintro (⟨hj, hrest⟩ | rfl)
    · exact ⟨by omega, hrest⟩
    · exact ⟨by omega, hp, hnone⟩

/-- What the one pass carries after the entries below `n`. -/
structure PassInv (P : Nat → Code) (n : Nat) (p : Pass) : Prop where
  depth : p.depth = p.stack.length
  stack : OpenStack P n p.stack
  firstJB : IsFirst (unmatchedJB P n) p.firstJB

theorem passInv_zero (P : Nat → Code) : PassInv P 0 (passLoop P 0) where
  depth := rfl
  stack := fun m hm => by rw [Nat.le_zero.1 hm]
  firstJB := Set.eq_empty_of_forall_notMem fun j hj => absurd hj.1 j.not_lt_zero

theorem PassInv.passStep {p : Pass} (h : PassInv P n p) : PassInv P (n + 1) (passStep P n p) := by
  obtain ⟨hdepth, hstack, hfirst⟩ := h
  unfold Machine.passStep
  split_ifs with hf hb h0
  · have hnot : P n = codeJB → ∃ i, Paired P i n := fun hb => by rw [hf] at hb; cases hb
    exact ⟨congrArg (· + 1) hdepth, hstack.push hf, unmatchedJB_succ_of_not hnot ▸ hfirst⟩
  · have hnil : p.stack = [] := List.eq_nil_of_length_eq_zero (hdepth.symm.trans h0)
    rw [hnil] at hstack
    refine ⟨hdepth, hnil ▸ hstack.stay_empty hb, ?_⟩
    rw [unmatchedJB_succ hb (hstack.not_paired_of_nil hb)]
    exact hfirst.minIndex (isFirst_singleton n)
  · obtain ⟨k, t, hcons⟩ := List.exists_cons_of_length_pos (Nat.pos_of_ne_zero (hdepth ▸ h0))
    rw [hcons] at hstack
    refine ⟨by simp [hdepth, hcons], by rw [hcons]; exact hstack.pop hb, ?_⟩
    exact unmatchedJB_succ_of_not (fun _ => ⟨k, hstack.pairs_top hb⟩) ▸ hfirst
  · exact ⟨hdepth, hstack.pass hf hb, unmatchedJB_succ_of_not (fun h => absurd h hb) ▸ hfirst⟩

theorem passInv_passLoop (P : Nat → Code) (n : Nat) : PassInv P n (passLoop P n) := by
  induction n with
  | zero => exact passInv_zero P
  | succ n ih => exact ih.passStep

/-- The one pass finds the first unmatched index of the definition. -/
theorem minIndex_passLoop (P : Nat → Code) (n : Nat) :
    minIndex (passLoop P n).firstJB (stackMin (passLoop P n).stack) = firstUnmatched P n := by
  obtain ⟨-, hstack, hfirst⟩ := passInv_passLoop P n
  have hset : {k | k ∈ (passLoop P n).stack} = unmatchedJF P n := Set.ext fun k => hstack.mem_iff
  have hmin := hfirst.minIndex (isFirst_stackMin (passLoop P n).stack)
  rw [hset, ← unmatched_eq_union] at hmin
  exact hmin.unique (isFirst_firstUnmatched P n)

/-! ### The cause that names a bracket -/

theorem unmatchedCause_codeJF : unmatchedCause codeJF = .loadUnmatchedJF := rfl

theorem unmatchedCause_codeJB : unmatchedCause codeJB = .loadUnmatchedJB := rfl

theorem validate_eq_some_iff {cause : Cause} {u : Nat} :
    validate P n = some (cause, u) ↔ firstUnmatched P n = some u ∧ cause = unmatchedCause (P u) := by
  unfold validate
  cases firstUnmatched P n with
  | none => simp
  | some v =>
    rw [Option.some.injEq, Prod.mk.injEq, Option.some.injEq, and_comm]
    exact and_congr_right fun hv => hv ▸ eq_comm

/-- An unmatched bracket together with its cause (R243). -/
theorem unmatchedAt_and_cause_iff {cause : Cause} {u : Nat} :
    unmatchedAt P n u = true ∧ cause = unmatchedCause (P u) ↔
      P u = codeJF ∧ matchFwd P n u = none ∧ cause = .loadUnmatchedJF ∨
        P u = codeJB ∧ matchBwd P n u = none ∧ cause = .loadUnmatchedJB := by
  rw [unmatchedAt_iff, or_and_right, and_assoc, and_assoc]
  refine or_congr (and_congr_right fun hp => ?_) (and_congr_right fun hp => ?_)
  · rw [hp, unmatchedCause_codeJF]
  · rw [hp, unmatchedCause_codeJB]

end Sys2Proof.Machine

open Sys2Proof Sys2Proof.Machine

/-- Settles O36: both forms name the first unmatched index, the one pass as the least of its stack and
its register. -/
theorem onePassValidateAgrees : Obligations.OnePassValidateAgrees := by
  unfold Obligations.OnePassValidateAgrees
  intro P n
  rw [validateOnePass, minIndex_passLoop, validate]

/-- Settles O35: Validate is OK where there is no first unmatched index, and names the one there is by its bracket. -/
theorem validateNamesTheSmallestUnmatched : Obligations.ValidateNamesTheSmallestUnmatched := by
  unfold Obligations.ValidateNamesTheSmallestUnmatched
  refine fun P n => ⟨validate_eq_none_iff, fun cause u => ?_⟩
  rw [validate_eq_some_iff, firstUnmatched_eq_some_iff, ← unmatchedAt_and_cause_iff]
  simp only [unmatchedAt_eq_false_iff]
  tauto
end

section
/-! SUPPORT. The jumps and NoOp (44_control.md section 1): each outcome of a jump as an equation, where a taken jump lands in a
block of the invariant, and the six statements about them. -/

namespace Sys2Proof.Machine

open Sys2Proof

variable {s t : State}

/-! ### The outcomes of a jump (R220, R228) -/

theorem exec_jumpForward_fallThrough (hm : s.mp < s.tapeLen) (hz : s.cell ≠ 0#8) :
    exec .jumpForward s = .next (endStep s) := by
  simp [exec, execJumpForward, withCell_onTape hm, isZero, hz]

theorem exec_jumpForward_zero (hm : s.mp < s.tapeLen) (hz : s.cell = 0#8) :
    exec .jumpForward s = .next (jumpTo (s.matchFwd s.pc) .runUnmatchedJF s) := by
  simp [exec, execJumpForward, withCell_onTape hm, isZero, hz]

theorem exec_jumpForward_taken (hm : s.mp < s.tapeLen) (hz : s.cell = 0#8) {j : Nat}
    (hj : matchFwd s.progRead s.progLen s.pc = some j) : exec .jumpForward s = .next (endStep { s with pc := j }) := by
  rw [exec_jumpForward_zero hm hz, State.matchFwd, hj, jumpTo]

theorem exec_jumpForward_unmatched (hm : s.mp < s.tapeLen) (hz : s.cell = 0#8)
    (hnone : matchFwd s.progRead s.progLen s.pc = none) :
    exec .jumpForward s = .next (raise .runUnmatchedJF (zext32 s.pc) s) := by
  rw [exec_jumpForward_zero hm hz, State.matchFwd, hnone, jumpTo]

theorem exec_jumpBackward_fallThrough (hm : s.mp < s.tapeLen) (hz : s.cell = 0#8) :
    exec .jumpBackward s = .next (endStep s) := by
  simp [exec, execJumpBackward, withCell_onTape hm, isZero, hz]

theorem exec_jumpBackward_nonzero (hm : s.mp < s.tapeLen) (hz : s.cell ≠ 0#8) :
    exec .jumpBackward s = .next (jumpTo (s.matchBwd s.pc) .runUnmatchedJB s) := by
  simp [exec, execJumpBackward, withCell_onTape hm, isZero, hz]

theorem exec_jumpBackward_taken (hm : s.mp < s.tapeLen) (hz : s.cell ≠ 0#8) {k : Nat}
    (hk : matchBwd s.progRead s.progLen s.pc = some k) : exec .jumpBackward s = .next (endStep { s with pc := k }) := by
  rw [exec_jumpBackward_nonzero hm hz, State.matchBwd, hk, jumpTo]

theorem exec_jumpBackward_unmatched (hm : s.mp < s.tapeLen) (hz : s.cell ≠ 0#8)
    (hnone : matchBwd s.progRead s.progLen s.pc = none) :
    exec .jumpBackward s = .next (raise .runUnmatchedJB (zext32 s.pc) s) := by
  rw [exec_jumpBackward_nonzero hm hz, State.matchBwd, hnone, jumpTo]

/-- A jump is the end of a step, from PC or from the match, or the fault that says there is none. -/
theorem exec_jump_cases {i : Instr} (hi : i = .jumpForward ∨ i = .jumpBackward) (h : exec i s = .next t) :
    (∃ j, t = endStep { s with pc := j }) ∨ ∃ cause info, t = raise cause info s := by
  rcases hi with rfl | rfl
  · obtain ⟨-, ⟨-, rfl⟩ | ⟨-, j, -, rfl⟩ | ⟨-, -, rfl⟩⟩ := execJumpForward_cases h
    · exact .inl ⟨s.pc, rfl⟩
    · exact .inl ⟨j, rfl⟩
    · exact .inr ⟨_, _, rfl⟩
  · obtain ⟨-, ⟨-, rfl⟩ | ⟨-, k, -, rfl⟩ | ⟨-, -, rfl⟩⟩ := execJumpBackward_cases h
    · exact .inl ⟨s.pc, rfl⟩
    · exact .inl ⟨k, rfl⟩
    · exact .inr ⟨_, _, rfl⟩

/-! ### Landing (R155, R156, R223) -/

/-- A taken jump to a match inside the program lands on the entry after it, without saturation. -/
theorem BlockInv.endStep_setPc (h : BlockInv s) {j : Nat} (hj : j < s.progLen) :
    Machine.endStep { s with pc := j } = { s with pc := j + 1, engState := builtState (j + 1) s.progLen } := by
  rw [Machine.endStep, incPc_of_lt (h.lt_pcMax hj)]

/-- In a built block of the invariant a `[` at PC has its match (R242, R247). -/
theorem BlockInv.exists_matchFwd (h : BlockInv s) (hb : s.built = true) (hpc : s.pc < s.progLen)
    (hp : s.progRead s.pc = encodeCode .jumpForward) : ∃ j, matchFwd s.progRead s.progLen s.pc = some j :=
  Balanced.fwd (h.balanced hb) hpc hp

/-- And a `]` at PC has its own. -/
theorem BlockInv.exists_matchBwd (h : BlockInv s) (hb : s.built = true) (hpc : s.pc < s.progLen)
    (hp : s.progRead s.pc = encodeCode .jumpBackward) : ∃ k, matchBwd s.progRead s.progLen s.pc = some k :=
  Balanced.bwd (h.balanced hb) hpc hp

end Sys2Proof.Machine

open Sys2Proof Sys2Proof.Machine

/-- Settles O29: the match lies inside the program, so the entry after it is the next one or the program's end. -/
theorem takenJumpForwardLanding : Obligations.TakenJumpForwardLanding := by
  unfold Obligations.TakenJumpForwardLanding
  intro s h hr hp hz
  have hb : s.built = true := State.built_iff.2 (.inl hr)
  obtain ⟨j, hmatch⟩ := h.exists_matchFwd hb (h.running hr) hp
  obtain ⟨-, hj⟩ := matchFwd_bounds hmatch
  have hexec : exec .jumpForward s = .next { s with pc := j + 1, engState := builtState (j + 1) s.progLen } := by
    rw [exec_jumpForward_taken (h.onTape hb) hz hmatch, h.endStep_setPc hj]
  refine ⟨j, _, hmatch, hexec, rfl, fun hend => builtState_eq_halted_iff.2 hend.ge, fun hne => ?_⟩
  have hlt : j + 1 < s.progLen := by omega
  exact ⟨builtState_eq_running_iff.2 hlt, fetchCode_of_pc_lt hlt⟩

/-- Settles O30: the match lies before PC, so the entry after it lies at PC at the latest, inside the program. -/
theorem takenJumpBackwardLanding : Obligations.TakenJumpBackwardLanding := by
  unfold Obligations.TakenJumpBackwardLanding
  intro s h hr hp hz
  have hb : s.built = true := State.built_iff.2 (.inl hr)
  obtain ⟨k, hmatch⟩ := h.exists_matchBwd hb (h.running hr) hp
  obtain ⟨hk, hpc⟩ := matchBwd_bounds hmatch
  have hexec : exec .jumpBackward s = .next { s with pc := k + 1, engState := builtState (k + 1) s.progLen } := by
    rw [exec_jumpBackward_taken (h.onTape hb) hz hmatch, h.endStep_setPc (hk.trans hpc)]
  exact ⟨k, _, hmatch, hk, hexec, rfl, builtState_eq_running_iff.2 (by omega)⟩

/-- Settles O26: the cell chooses between the end of the step and the jump, and the match between its two outcomes. -/
theorem jumpForwardSkipsWhenZero : Obligations.JumpForwardSkipsWhenZero := by
  unfold Obligations.JumpForwardSkipsWhenZero
  exact ⟨decodeChar_encodeChar .jumpForward, decodeCode_encodeCode .jumpForward, fun s hm =>
    ⟨exec_jumpForward_fallThrough hm, fun j hz => exec_jumpForward_taken hm hz, exec_jumpForward_unmatched hm⟩⟩

/-- Settles O27: as for JumpForward, with the cell's test the other way. -/
theorem jumpBackwardReturnsWhenNonzero : Obligations.JumpBackwardReturnsWhenNonzero := by
  unfold Obligations.JumpBackwardReturnsWhenNonzero
  exact ⟨decodeChar_encodeChar .jumpBackward, decodeCode_encodeCode .jumpBackward, fun s hm =>
    ⟨exec_jumpBackward_fallThrough hm, fun k hz => exec_jumpBackward_taken hm hz, exec_jumpBackward_unmatched hm⟩⟩

/-- Settles O28: neither the end of a step nor the fault entry writes more, and the fault entry is in FAULT. -/
theorem jumpFrame : Obligations.JumpFrame := by
  unfold Obligations.JumpFrame
  intro i s t hi h
  obtain ⟨j, rfl⟩ | ⟨cause, info, rfl⟩ := exec_jump_cases hi h
  · exact ⟨rfl, fun _ => rfl, rfl, rfl, rfl, fun _ => ⟨rfl, rfl⟩⟩
  · exact ⟨rfl, fun _ => rfl, rfl, rfl, rfl, fun hne => absurd rfl hne⟩

/-- Settles O31: NoOp is the end of the step and no more, and it is what every other character decodes to. -/
theorem noOpOnlyAdvances : Obligations.NoOpOnlyAdvances := by
  unfold Obligations.NoOpOnlyAdvances
  exact ⟨decodeCode_encodeCode .noOp, fun c hgt hlt hplus hminus hdot hcomma hopen hclose =>
    decodeChar_of_not_command hgt hlt hplus hminus hdot hcomma hopen hclose, fun _ => rfl⟩
end

section
/-! SUPPORT. Which faults a step from a state of the invariant can enter: the checks of a build and the BOUNDS of READ_PROG
(R251, R255), and none by an instruction (R247); and the statement about runs. -/

namespace Sys2Proof.Machine

open Sys2Proof

variable {s s0 t : State}

/-- The fault held, if any, is none of a jump without a match (R247). -/
def NoJumpFault (s : State) : Prop := s.faultCause ≠ .runUnmatchedJF ∧ s.faultCause ≠ .runUnmatchedJB

theorem noJumpFault_of_code_lt (h : s.faultCause.code < 7) : NoJumpFault s := by
  constructor <;> (intro hc; rw [hc] at h; exact absurd h (by decide))

theorem NoJumpFault.of_eq (h : NoJumpFault s) (ht : t.faultCause = s.faultCause) : NoJumpFault t := by
  rwa [NoJumpFault, ht]

/-- A block of the invariant outside FAULT holds no fault at all (R42, R251). -/
theorem BlockInv.noJumpFault (h : BlockInv s) (hne : s.engState ≠ .fault) : NoJumpFault s := by
  rw [NoJumpFault, h.causeHeld.2 hne]; exact ⟨nofun, nofun⟩

/-! ### No instruction -/

/-- In a built block of the invariant the instruction a STEP fetches enters no FAULT: a jump's bracket has its match. -/
theorem BlockInv.exec_ne_fault {i : Instr} (h : BlockInv s) (hb : s.built = true)
    (hf : decodeCode (fetchCode s) = .ok i) (he : Machine.exec i s = .next t) : t.engState ≠ .fault := by
  intro ht
  rcases exec_enters_fault (ne_fault_of_built hb) he ht with ⟨rfl, -⟩ | ⟨rfl, -⟩ <;>
    obtain ⟨hpc, hp⟩ := progRead_of_fetched hf nofun
  · obtain ⟨j, hj⟩ := h.exists_matchFwd hb hpc hp
    obtain ⟨-, ⟨-, rfl⟩ | ⟨-, j', -, rfl⟩ | ⟨-, hnone, -⟩⟩ := execJumpForward_cases he
    · exact endStep_ne_fault _ ht
    · exact endStep_ne_fault _ ht
    · exact nomatch hj.symm.trans hnone
  · obtain ⟨k, hk⟩ := h.exists_matchBwd hb hpc hp
    obtain ⟨-, ⟨-, rfl⟩ | ⟨-, k', -, rfl⟩ | ⟨-, hnone, -⟩⟩ := execJumpBackward_cases he
    · exact endStep_ne_fault _ ht
    · exact endStep_ne_fault _ ht
    · exact nomatch hk.symm.trans hnone

theorem BlockInv.doStep_noJumpFault (h : BlockInv s) (hn : NoJumpFault s) (hd : Machine.doStep s = .next t) :
    NoJumpFault t := by
  have ht := h.doStep hd
  rcases doStep_cases hd with ⟨-, rfl⟩ | ⟨hacc, i, u, hf, he, rfl⟩
  · exact hn
  · have hu : u.engState ≠ .fault := h.exec_ne_fault (stepAccepted_iff.1 hacc).1 hf he
    exact ht.noJumpFault hu

/-! ### The other commands -/

theorem validate_cause_code_lt {P : Nat → Code} {n u : Nat} {cause : Cause} (h : validate P n = some (cause, u)) :
    cause.code < 7 := by
  obtain ⟨-, rfl⟩ := validate_eq_some_iff.1 h
  unfold unmatchedCause
  split <;> decide

theorem programFault_cause_code_lt {cause : Cause} {info : Word} (h : programFault s = some (cause, info)) :
    cause.code < 7 := by
  unfold programFault at h
  split_ifs at h
  · cases h; decide
  · cases h; decide
  · split at h
    next hv => cases h; exact validate_cause_code_lt hv
    next => cases h

/-- A build fails with one of its own causes, which are numbered before those of a run (R251, R255). -/
theorem buildFault_cause_code_lt {cause : Cause} {info : Word} (h : buildFault s = some (cause, info)) :
    cause.code < 7 := by
  unfold buildFault at h
  split_ifs at h
  · cases h; decide
  · cases h; decide
  · split at h
    · cases h
    · exact programFault_cause_code_lt h

theorem NoJumpFault.doPushInstr (hn : NoJumpFault s) (k : Code) : NoJumpFault (doPushInstr k s) := by
  refine hn.of_eq ?_
  unfold Machine.doPushInstr noteBadop
  split_ifs <;> rfl

theorem NoJumpFault.doBuildCommit (hn : NoJumpFault s) : NoJumpFault (doBuildCommit s) := by
  unfold Machine.doBuildCommit
  split_ifs
  · split
    next hf => exact noJumpFault_of_code_lt (buildFault_cause_code_lt hf)
    next => exact hn
  · exact hn

theorem NoJumpFault.doReadProg (hn : NoJumpFault s) (i : Nat) (mode : ReadMode) : NoJumpFault (doReadProg i mode s) := by
  rcases doReadProg_cases i mode s with ⟨r, hr⟩ | ⟨-, info, hr⟩ <;> rw [hr]
  · exact hn
  · exact ⟨nofun, nofun⟩

theorem BlockInv.doCmd_noJumpFault {c : Cmd} (h : BlockInv s) (hn : NoJumpFault s) (hd : Machine.doCmd c s = .next t) :
    NoJumpFault t := by
  cases c with
  | reset => cases hd; exact h.doReset.noJumpFault nofun
  | buildBegin mode tsValid tsValue present =>
    cases hd; exact (h.doBuildBegin mode tsValid tsValue present).noJumpFault nofun
  | progPushChar ch => cases hd; rw [doPushChar_eq_doPushInstr]; exact hn.doPushInstr _
  | progPushInstr k => cases hd; exact hn.doPushInstr k
  | buildCommit => cases hd; exact hn.doBuildCommit
  | step => exact h.doStep_noJumpFault hn hd
  | readCsr addr => cases hd; rw [doReadCsr_eq]; exact hn
  | readTape i => cases hd; obtain ⟨r, hr⟩ := doReadTape_answers i s; rw [hr]; exact hn
  | readProg i mode => cases hd; exact hn.doReadProg i mode

/-! ### Runs -/

theorem BlockInv.step_noJumpFault (h : BlockInv s) (hn : NoJumpFault s) (hs : Machine.step s = .next t) :
    NoJumpFault t := by
  have ht := h.step hs
  obtain ⟨s0, hsame, ⟨c, -, hd⟩ | ⟨r, u, -, -, hc, rfl⟩ | ⟨r, u, -, -, hc, rfl⟩⟩ := step_cases hs
  · exact (h.sameBlock hsame).doCmd_noJumpFault (hn.of_eq (by rw [hsame])) hd
  · have hu : u.engState ≠ .fault := completeInput_ne_fault hc
    exact ht.noJumpFault hu
  · have hu : u.engState ≠ .fault := completeOutput_ne_fault hc
    exact ht.noJumpFault hu

theorem BlockInv.runSteps_noJumpFault {n : Nat} (h : BlockInv s) (hn : NoJumpFault s)
    (hr : Machine.runSteps n s = .next t) : NoJumpFault t := by
  induction n generalizing s with
  | zero => cases hr; exact hn
  | succ n ih =>
    obtain ⟨u, hu, hr⟩ := andThen_eq_next (by simpa using hr)
    exact ih (h.step hu) (h.step_noJumpFault hn hu) hr

end Sys2Proof.Machine

open Sys2Proof Sys2Proof.Machine

/-- Settles O56: by induction on the run, in each step of which the invariant rules the two faults out. -/
theorem runsNeverMeetAnUnmatchedBracket : Obligations.RunsNeverMeetAnUnmatchedBracket := by
  unfold Obligations.RunsNeverMeetAnUnmatchedBracket
  exact fun s t n h hJF hJB hr => h.runSteps_noJumpFault ⟨hJF, hJB⟩ hr
end

section
/-! SUPPORT. FAULT (R260, R261, R262): every way into it is one fault entry after which the host is told, in it every command
that keeps the VM only answers, and only the two that discard the VM lead out; BUILD_COMMIT by its checks (R255, R307); and the
four statements about them. -/

namespace Sys2Proof.Machine

open Sys2Proof

variable {s s0 t : State}

/-! ### BUILD_COMMIT and its checks (R255) -/

theorem doBuildCommit_fails (hl : s.engState = .loading) {cause : Cause} {info : Word}
    (hf : buildFault s = some (cause, info)) : doBuildCommit s = answer (.faulted cause) (raise cause info s) := by
  simp only [doBuildCommit, hl, hf, if_true]

theorem doBuildCommit_passes (hl : s.engState = .loading) (hf : buildFault s = none) :
    doBuildCommit s = answer .ok (construct s) := by
  simp only [doBuildCommit, hl, hf, if_true]

theorem buildFault_noInput (hin : s.stage.inputPresent = false) : buildFault s = some (.configNoInput, 0#32) :=
  if_pos hin

theorem buildFault_badTapeSize (hin : s.stage.inputPresent = true)
    (hbad : buildTapeLen s = 0 ∨ s.hw.tapeMax < buildTapeLen s) :
    buildFault s = some (.configBadTapeSize, zext32 (buildTapeLen s)) := by
  simp only [buildFault, hin, if_pos hbad, Bool.true_eq_false, if_false]

/-- A DEFAULT program is exempt from the checks of a program (R255). -/
theorem buildFault_default (hin : s.stage.inputPresent = true)
    (htape : ¬ (buildTapeLen s = 0 ∨ s.hw.tapeMax < buildTapeLen s)) (hm : s.stage.mode = .defaultProgram) :
    buildFault s = none := by
  simp only [buildFault, hin, hm, if_neg htape, Bool.true_eq_false, if_false]

theorem programFault_validate (ho : s.stage.overflow = false) (hb : s.stage.badopSeen = false) {cause : Cause} {u : Nat}
    (hv : validate s.progRead s.stage.len = some (cause, u)) : programFault s = some (cause, zext32 u) := by
  simp only [programFault, ho, hb, hv, Bool.false_eq_true, if_false]

theorem buildTapeLen_supplied (hts : s.stage.tsValid = true) : buildTapeLen s = s.stage.tsValue.toNat := if_pos hts

theorem zext32_toNat_self (w : Word) : zext32 w.toNat = w :=
  (BitVec.ofNat_toNat 32 w).trans (BitVec.setWidth_eq w)

/-- The commit of a SUPPLIED build whose configuration checks pass reports what its program fails (R255, R263). -/
theorem ConfigPasses.doBuildCommit_eq (h : ConfigPasses s) {cause : Cause} {info : Word}
    (hf : programFault s = some (cause, info)) : doBuildCommit s = Machine.answer (.faulted cause) (raise cause info s) :=
  doBuildCommit_fails h.loading (h.buildFault_eq.trans hf)

/-! ### The ways into FAULT (R260) -/

/-- A fault entry that tells the host: all that a transition into FAULT does to the block. -/
def FaultEntry (s t : State) : Prop :=
  ∃ cause info, cause ≠ .none ∧ t = answer (.faulted cause) (raise cause info s)

/-- A STEP that raised a fault answers FAULTED with its cause (R150, R260). -/
theorem faultEntry_answerStep (hi : s.ioWait = .idle) {cause : Cause} (hc : cause ≠ .none) (info : Word) :
    FaultEntry s (answerStep (raise cause info s)) := by
  refine ⟨cause, info, hc, ?_⟩
  rw [answerStep, stepResp_faulted (s := raise cause info s) hi rfl]
  rfl

theorem doStep_enters_fault (hs : s.engState ≠ .fault) (hd : doStep s = .next t) (ht : t.engState = .fault) :
    FaultEntry s t := by
  rcases doStep_cases hd with ⟨-, rfl⟩ | ⟨hacc, i, u, -, he, rfl⟩
  · exact absurd ht hs
  · have hi : s.ioWait = .idle := (stepAccepted_iff.1 hacc).2
    rcases exec_enters_fault hs he ht with ⟨-, rfl⟩ | ⟨-, rfl⟩
    · exact faultEntry_answerStep hi (cause := .runUnmatchedJF) nofun _
    · exact faultEntry_answerStep hi (cause := .runUnmatchedJB) nofun _

theorem doPushInstr_engState (k : Code) (s : State) : (doPushInstr k s).engState = s.engState := by
  unfold doPushInstr noteBadop
  split_ifs <;> rfl

theorem doBuildCommit_enters_fault (hs : s.engState ≠ .fault) (ht : (doBuildCommit s).engState = .fault) :
    FaultEntry s (doBuildCommit s) := by
  by_cases hl : s.engState = .loading
  · cases hf : buildFault s with
    | some f => exact ⟨f.1, f.2, buildFault_cause_ne_none hf, doBuildCommit_fails hl hf⟩
    | none =>
      rw [doBuildCommit_passes hl hf] at ht
      exact absurd ht (builtState_ne_fault _ _)
  · rw [doBuildCommit_ignored hl] at ht
    exact absurd ht hs

/-- Of the commands, a STEP whose jump finds no match, BUILD_COMMIT and READ_PROG in INDEX mode enter FAULT. -/
theorem doCmd_enters_fault {c : Cmd} (hs : s.engState ≠ .fault) (hd : doCmd c s = .next t) (ht : t.engState = .fault) :
    FaultEntry s t := by
  cases c with
  | reset => cases hd; cases ht
  | buildBegin mode tsValid tsValue present => cases hd; cases ht
  | progPushChar ch =>
    cases hd
    rw [doPushChar_eq_doPushInstr, doPushInstr_engState] at ht
    exact absurd ht hs
  | progPushInstr k =>
    cases hd
    rw [doPushInstr_engState] at ht
    exact absurd ht hs
  | buildCommit => cases hd; exact doBuildCommit_enters_fault hs ht
  | step => exact doStep_enters_fault hs hd ht
  | readCsr addr => cases hd; rw [doReadCsr_eq] at ht; exact absurd ht hs
  | readTape i =>
    cases hd
    obtain ⟨r, hr⟩ := doReadTape_answers i s
    rw [hr] at ht
    exact absurd ht hs
  | readProg i mode =>
    cases hd
    rcases doReadProg_cases i mode s with ⟨r, hr⟩ | ⟨-, info, hr⟩
    · rw [hr] at ht; exact absurd ht hs
    · exact ⟨.bounds, info, nofun, hr⟩

/-- The completion of a waiting step never enters FAULT, so every transition that does handled a command. -/
theorem step_enters_fault (hs : s.engState ≠ .fault) (h : step s = .next t) (ht : t.engState = .fault) :
    ∃ s0, SameBlock s s0 ∧ FaultEntry s0 t := by
  obtain ⟨s0, hsame, ⟨c, -, hd⟩ | ⟨r, u, -, -, hc, rfl⟩ | ⟨r, u, -, -, hc, rfl⟩⟩ := step_cases h
  · exact ⟨s0, hsame, doCmd_enters_fault (hsame.engState ▸ hs) hd ht⟩
  · have hu : u.engState ≠ .fault := completeInput_ne_fault hc
    exact absurd ht hu
  · have hu : u.engState ≠ .fault := completeOutput_ne_fault hc
    exact absurd ht hu

/-! ### The commands in FAULT (R261, R262) -/

theorem not_built_of_fault (he : s.engState = .fault) : ¬ s.built = true := fun hb => ne_fault_of_built hb he

theorem ne_loading_of_fault (he : s.engState = .fault) : s.engState ≠ .loading := by simp [he]

theorem doStep_refused_of_fault (he : s.engState = .fault) : doStep s = .next (answer .refused s) :=
  doStep_refused fun hacc => not_built_of_fault he (stepAccepted_iff.1 hacc).1

theorem doReadTape_notBuilt (hb : ¬ s.built = true) (i : Word) : doReadTape i s = answer (.tape .invalid 0#8) s :=
  doReadTape_invalid fun h => hb h.1

theorem doReadProg_notBuilt (hi : s.ioWait = .idle) (hb : ¬ s.built = true) (i : Nat) (mode : ReadMode) :
    doReadProg i mode s = answer (.prog .invalid 0#4) s := by
  rw [doReadProg, if_neg fun h => h.2 hi, readProgAt_notBuilt hb]

/-- In FAULT a command that keeps the VM only answers. -/
theorem doCmd_answers_of_fault {c : Cmd} (he : s.engState = .fault) (hi : s.ioWait = .idle) (hc : c.discardsVm = false)
    (hd : doCmd c s = .next t) : ∃ r, t = answer r s := by
  have hl := ne_loading_of_fault he
  have hb := not_built_of_fault he
  cases c with
  | reset => cases hc
  | buildBegin mode tsValid tsValue present => cases hc
  | progPushChar ch => cases hd; exact ⟨_, doPushChar_ignored hl ch⟩
  | progPushInstr k => cases hd; exact ⟨_, doPushInstr_ignored hl k⟩
  | buildCommit => cases hd; exact ⟨_, doBuildCommit_ignored hl⟩
  | step => exact ⟨_, Host.Outcome.next.inj (hd.symm.trans (doStep_refused_of_fault he))⟩
  | readCsr addr => cases hd; exact ⟨_, doReadCsr_eq addr s⟩
  | readTape i => cases hd; exact ⟨_, doReadTape_notBuilt hb i⟩
  | readProg i mode => cases hd; exact ⟨_, doReadProg_notBuilt hi hb i mode⟩

/-- While no step waits the host moves. -/
theorem step_idle (hi : s.ioWait = .idle) (h : step s = .next t) :
    ∃ c s0, nextMove s = (.cmd c, s0) ∧ doCmd c s0 = .next t := by
  obtain ⟨s0, -, ⟨c, hn, hd⟩ | ⟨r, u, -, hw, -⟩ | ⟨r, u, -, hw, -⟩⟩ := step_cases h
  · exact ⟨c, s0, hn, hd⟩
  · simp [hi] at hw
  · simp [hi] at hw

end Sys2Proof.Machine

open Sys2Proof Sys2Proof.Machine

/-- Settles O37: every transition into FAULT is a fault entry and an answer, from the state whose queues have moved on. -/
theorem faultEntryIsPrecise : Obligations.FaultEntryIsPrecise := by
  unfold Obligations.FaultEntryIsPrecise
  intro s t h hs ht
  obtain ⟨s0, hsame, cause, info, hcause, rfl⟩ := step_enters_fault hs h ht
  rw [hsame]
  exact ⟨rfl, hcause, rfl, rfl, rfl⟩

/-- Settles O39: the commands that keep the VM only answer in FAULT, and the other two leave nothing of it. -/
theorem onlyResetAndBuildBeginLeaveFault : Obligations.OnlyResetAndBuildBeginLeaveFault := by
  unfold Obligations.OnlyResetAndBuildBeginLeaveFault
  intro s t he hi h ht
  obtain ⟨c, s0, hn, hd⟩ := step_idle hi h
  have hsame := sameBlock_of_nextMove hn
  have he0 := hsame.engState.trans he
  have hc : c.discardsVm = true := by
    by_contra hkeep
    obtain ⟨r, rfl⟩ := doCmd_answers_of_fault he0 (hsame.ioWait.trans hi) (Bool.eq_false_of_not_eq_true hkeep) hd
    exact ht he0
  cases c with
  | reset => cases hd; exact ⟨.inl ⟨⟨s0, hn⟩, rfl⟩, rfl, rfl, rfl, rfl, rfl, rfl, rfl⟩
  | buildBegin mode tsValid tsValue present =>
    cases hd
    exact ⟨.inr ⟨⟨s0, mode, tsValid, tsValue, present, hn⟩, rfl⟩, rfl, rfl, rfl, rfl, rfl, rfl, rfl⟩
  | _ => cases hc

/-- Settles O44: one case per check, in the order of R255, and the DEFAULT program past the first two. -/
theorem buildChecksInOrder : Obligations.BuildChecksInOrder := by
  unfold Obligations.BuildChecksInOrder
  refine ⟨fun s s0 hn hl => ?ignored, fun s s0 hn hl => ?checks⟩ <;> rw [step_of_cmd hn, doCmd]
  case ignored => exact congrArg Host.Outcome.next (doBuildCommit_ignored hl)
  case checks =>
    refine ⟨fun hin => ?noInput, fun hin hv hbad => ?badSize, fun hin hmax hts hm => ?supplied, fun hin hmax hts hm => ?default⟩
    case noInput => exact congrArg Host.Outcome.next (doBuildCommit_fails hl (buildFault_noInput hin))
    case badSize =>
      have hlen := buildTapeLen_supplied hv
      have hfail : buildTapeLen s0 = 0 ∨ s0.hw.tapeMax < buildTapeLen s0 := by
        rw [hlen]; exact hbad.imp_left fun h0 => by rw [h0]; rfl
      have hf := buildFault_badTapeSize hin hfail
      rw [hlen, zext32_toNat_self] at hf
      exact congrArg Host.Outcome.next (doBuildCommit_fails hl hf)
    case supplied =>
      have hcfg : ConfigPasses s0 := ⟨hl, hm, hin, buildTapeLen_passes hmax hts⟩
      refine ⟨fun ho => ?tooLong, fun ho hb => ?badOpcode, fun cause u ho hb hv => ?unmatched⟩
      case tooLong => exact congrArg Host.Outcome.next (hcfg.doBuildCommit_eq (programFault_overflow ho))
      case badOpcode => exact congrArg Host.Outcome.next (hcfg.doBuildCommit_eq (programFault_badop ho hb))
      case unmatched => exact congrArg Host.Outcome.next (hcfg.doBuildCommit_eq (programFault_validate ho hb hv))
    case default =>
      have hf := buildFault_default hin (buildTapeLen_passes hmax hts) hm
      exact ⟨_, congrArg Host.Outcome.next (doBuildCommit_passes hl hf), rfl⟩

/-- Settles O38: one equation per command in a block that is neither built nor in LOADING. -/
theorem faultIsSticky : Obligations.FaultIsSticky := by
  unfold Obligations.FaultIsSticky
  intro s s0 c hn he hi
  have hl := ne_loading_of_fault he
  have hb := not_built_of_fault he
  rw [step_of_cmd hn]
  refine ⟨?step, ?commit, ?pushChar, ?pushInstr, ?readProg, ?readTape, ?readCsr⟩
  case step => rintro rfl; exact doStep_refused_of_fault he
  case commit => rintro rfl; exact congrArg Host.Outcome.next (doBuildCommit_ignored hl)
  case pushChar => rintro ch rfl; exact congrArg Host.Outcome.next (doPushChar_ignored hl ch)
  case pushInstr => rintro k rfl; exact congrArg Host.Outcome.next (doPushInstr_ignored hl k)
  case readProg => rintro i m rfl; exact congrArg Host.Outcome.next (doReadProg_notBuilt hi hb i m)
  case readTape => rintro i rfl; exact congrArg Host.Outcome.next (doReadTape_notBuilt hb i)
  case readCsr =>
    rintro a rfl
    refine ⟨_, congrArg Host.Outcome.next (doReadCsr_eq a s0), fun w hw => ?word, fun hnone => ?noWord, ?state, ?cause, ?info,
      ?pc⟩
    case word => rw [hw]; rfl
    case noWord => rw [hnone]; rfl
    case state =>
      rintro rfl
      have hw : csrWord s0 0x00#8 = some 4#32 := by simp [csrWord, he, hi, EngState.code, IoWait.code, zext32]
      rw [hw]; rfl
    case cause => rintro rfl; rfl
    case info => rintro rfl; rfl
    case pc => rintro rfl; rfl
end

section
/-! SUPPORT. A host command to a block that waits, and to one that holds no VM (R301, R320, R321): what an aborted step leaves
behind, what RESET and BUILD_BEGIN have in common, what every other command answers; and the four statements about them. -/

namespace Sys2Proof.Machine

open Sys2Proof

variable {s t : State}

/-! ### What an aborted step leaves behind (R320) -/

@[simp] theorem abortIo_hw (s : State) : (abortIo s).hw = s.hw := by rw [abortIo_eq_withEnv]
@[simp] theorem abortIo_tape (s : State) : (abortIo s).tape = s.tape := by rw [abortIo_eq_withEnv]
@[simp] theorem abortIo_prog (s : State) : (abortIo s).prog = s.prog := by rw [abortIo_eq_withEnv]

@[simp] theorem abortIo_consumed (s : State) : (abortIo s).env.consumed = s.env.consumed := by
  unfold abortIo; split <;> rfl

@[simp] theorem abortIo_cmds (s : State) : (abortIo s).env.cmds = s.env.cmds := by
  unfold abortIo; split <;> rfl

/-- Only an aborted output leaves anything behind. -/
theorem abortIo_of_ne_output (hw : s.ioWait ≠ .output) : abortIo s = s := by
  unfold abortIo
  split
  next ho => exact absurd ho hw
  next => rfl
  next => rfl

/-- The environment took the byte of an aborted output, or it did not: the two outcomes of the free value (log 5). -/
theorem abortIo_emitted_of_output (hw : s.ioWait = .output) :
    (abortIo s).env.emitted = s.env.emitted ∨ (abortIo s).env.emitted = s.env.emitted ++ [s.cell] := by
  simp only [abortIo, hw]
  split
  · exact .inr rfl
  · exact .inl rfl

/-- What the two commands that discard the VM have in common: the aborted step, its wait ended, and the answer OK. -/
theorem doCmd_of_discardsVm {c : Cmd} (hc : c.discardsVm = true) (s : State) :
    ∃ t, doCmd c s = .next t ∧ t.ioWait = .idle ∧ t.pc = 0 ∧ t.env = { (abortIo s).env with resp := some .ok } := by
  cases c with
  | reset => exact ⟨_, rfl, rfl, rfl, rfl⟩
  | buildBegin mode tsValid tsValue present => exact ⟨_, rfl, rfl, rfl, rfl⟩
  | _ => cases hc

/-! ### READ_CSR, by the register map (R48) -/

theorem exists_csrAnswer (a : Byte) (s : State) :
    ∃ r, doReadCsr a s = answer r s ∧ (∀ w, csrWord s a = some w → r = .csr .ok w) ∧
      (csrWord s a = none → r = .csr .invalid 0#32) := by
  refine ⟨_, doReadCsr_eq a s, fun w hw => ?_, fun hnone => ?_⟩
  · rw [hw]; rfl
  · rw [hnone]; rfl

/-! ### A block that is neither built nor in LOADING (R301) -/

theorem not_built_of_unbuilt (he : s.engState = .unbuilt) : ¬ s.built = true := by simp [State.built, he]

theorem ne_loading_of_unbuilt (he : s.engState = .unbuilt) : s.engState ≠ .loading := by simp [he]

theorem doStep_refused_of_notBuilt (hb : ¬ s.built = true) : doStep s = .next (answer .refused s) :=
  doStep_refused fun hacc => hb (stepAccepted_iff.1 hacc).1

/-- A block that holds neither a VM nor the beginnings of one answers a command that keeps it, and no more. -/
theorem doCmd_answers_of_notBuilt {c : Cmd} (hb : ¬ s.built = true) (hl : s.engState ≠ .loading) (hi : s.ioWait = .idle)
    (hc : c.discardsVm = false) (hd : doCmd c s = .next t) : ∃ r, t = answer r s := by
  cases c with
  | reset => cases hc
  | buildBegin mode tsValid tsValue present => cases hc
  | progPushChar ch => cases hd; exact ⟨_, doPushChar_ignored hl ch⟩
  | progPushInstr k => cases hd; exact ⟨_, doPushInstr_ignored hl k⟩
  | buildCommit => cases hd; exact ⟨_, doBuildCommit_ignored hl⟩
  | step => exact ⟨_, Host.Outcome.next.inj (hd.symm.trans (doStep_refused_of_notBuilt hb))⟩
  | readCsr addr => cases hd; exact ⟨_, doReadCsr_eq addr s⟩
  | readTape i => cases hd; exact doReadTape_answers i s
  | readProg i mode => cases hd; exact ⟨_, doReadProg_notBuilt hi hb i mode⟩

/-- UNBUILT is left only through BUILD_BEGIN (R301). -/
theorem doCmd_leaves_unbuilt {c : Cmd} (he : s.engState = .unbuilt) (hi : s.ioWait = .idle) (hd : doCmd c s = .next t)
    (ht : t.engState ≠ .unbuilt) : ∃ m v w p, c = .buildBegin m v w p := by
  cases hc : c.discardsVm with
  | false =>
    obtain ⟨r, rfl⟩ := doCmd_answers_of_notBuilt (not_built_of_unbuilt he) (ne_loading_of_unbuilt he) hi hc hd
    exact absurd he ht
  | true =>
    cases c with
    | reset => cases hd; exact absurd rfl ht
    | buildBegin mode tsValid tsValue present => exact ⟨mode, tsValid, tsValue, present, rfl⟩
    | _ => cases hc

/-! ### A block in which a step waits (R321) -/

theorem doStep_refused_of_waiting (hw : s.ioWait ≠ .idle) : doStep s = .next (answer .refused s) :=
  doStep_refused fun hacc => hw (stepAccepted_iff.1 hacc).2

theorem doReadTape_eq (hb : s.built = true) (i : Word) : doReadTape i s =
    answer (if i.toNat < s.tapeLen then .tape .ok (Memory.read s.tape i.toNat) else .tape .invalid 0#8) s := by
  split
  · next hi => exact doReadTape_ok hb hi
  · next hi => exact doReadTape_invalid fun h => hi h.2

/-- GET mode answers during a wait as at any time (R101). -/
theorem doReadProg_get_eq (hb : s.built = true) {i : Nat} (hi : i < 2 ^ s.hw.pcW) : doReadProg i .get s =
    answer (if s.progValid = true ∧ i < s.progLen then .prog .ok (s.progRead i) else .prog .none 0#4) s := by
  rw [doReadProg_eq_readProgAt (.inl rfl) hi]
  split
  · next h => exact readProgAt_inside hb h.1 h.2 .get
  · next h => exact readProgAt_outside_get hb h

end Sys2Proof.Machine

open Sys2Proof Sys2Proof.Machine

/-- Settles O40: one equation per command in a block that is neither built nor in LOADING, of which only BUILD_BEGIN
changes the block. -/
theorem unbuiltCommands : Obligations.UnbuiltCommands := by
  unfold Obligations.UnbuiltCommands
  intro s s0 c hn he hi
  have hl := ne_loading_of_unbuilt he
  have hb := not_built_of_unbuilt he
  rw [step_of_cmd hn]
  refine ⟨?step, ?commit, ?pushChar, ?pushInstr, ?readProg, ?readTape, ?readCsr, ?begin, fun t hd ht => ?leaves⟩
  case step => rintro rfl; exact doStep_refused_of_notBuilt hb
  case commit => rintro rfl; exact congrArg Host.Outcome.next (doBuildCommit_ignored hl)
  case pushChar => rintro ch rfl; exact congrArg Host.Outcome.next (doPushChar_ignored hl ch)
  case pushInstr => rintro k rfl; exact congrArg Host.Outcome.next (doPushInstr_ignored hl k)
  case readProg => rintro i m rfl; exact congrArg Host.Outcome.next (doReadProg_notBuilt hi hb i m)
  case readTape => rintro i rfl; exact congrArg Host.Outcome.next (doReadTape_notBuilt hb i)
  case readCsr =>
    rintro a rfl
    obtain ⟨r, hr, hword, hnone⟩ := exists_csrAnswer a s0
    refine ⟨r, congrArg Host.Outcome.next hr, hword, hnone, ?_⟩
    rintro rfl
    exact hword _ (by simp [csrWord, he, hi, EngState.code, IoWait.code, zext32])
  case begin => rintro m v w p rfl; exact ⟨_, rfl, rfl⟩
  case leaves => exact doCmd_leaves_unbuilt he hi hd ht

/-- Settles O51: the wait alone refuses, RUNNING alone ignores, and the reads see the state before the step. -/
theorem commandsDuringAWait : Obligations.CommandsDuringAWait := by
  unfold Obligations.CommandsDuringAWait
  intro s s0 c hn hw he
  have hl : s0.engState ≠ .loading := by simp [he]
  have hb : s0.built = true := State.built_iff.2 (.inl he)
  rw [step_of_cmd hn]
  refine ⟨?step, ?index, ?pushChar, ?pushInstr, ?commit, ?readCsr, ?readTape, ?get, fun hc => ?discards⟩
  case step => rintro rfl; exact doStep_refused_of_waiting hw
  case index => rintro i rfl; exact congrArg Host.Outcome.next (doReadProg_refused hw i)
  case pushChar => rintro ch rfl; exact congrArg Host.Outcome.next (doPushChar_ignored hl ch)
  case pushInstr => rintro k rfl; exact congrArg Host.Outcome.next (doPushInstr_ignored hl k)
  case commit => rintro rfl; exact congrArg Host.Outcome.next (doBuildCommit_ignored hl)
  case readCsr =>
    rintro a rfl
    obtain ⟨r, hr, hword, hnone⟩ := exists_csrAnswer a s0
    refine ⟨r, congrArg Host.Outcome.next hr, hword, hnone, ?_⟩
    rintro rfl
    exact hword _ rfl
  case readTape => rintro i rfl; exact ⟨_, congrArg Host.Outcome.next (doReadTape_eq hb i), rfl⟩
  case get => rintro i rfl hi; exact ⟨_, congrArg Host.Outcome.next (doReadProg_get_eq hb hi), rfl⟩
  case discards =>
    obtain ⟨t, ht, hidle, -, henv⟩ := doCmd_of_discardsVm hc s0
    exact ⟨t, ht, hidle, by rw [henv]⟩

/-- Settles O42: BUILD_BEGIN writes each of these elements, and the hardware is no element of an aborted step. -/
theorem buildBeginStartsABuild : Obligations.BuildBeginStartsABuild := by
  unfold Obligations.BuildBeginStartsABuild
  intro s s0 mode tsValid tsValue present hn
  have hhw : (abortIo s0).hw = s.hw := (abortIo_hw s0).trans (sameBlock_of_nextMove hn).hw
  exact ⟨doBuildBegin mode tsValid tsValue present s0, step_of_cmd hn, rfl, hhw, rfl, rfl, rfl, rfl, rfl, rfl, rfl, rfl, rfl,
    rfl⟩

/-- Settles O52: what RESET and BUILD_BEGIN keep of the agents' records is what the aborted step left behind. -/
theorem abortedStepHasNoEffect : Obligations.AbortedStepHasNoEffect := by
  unfold Obligations.AbortedStepHasNoEffect
  intro s s0 t c hn hc hs
  rw [step_of_cmd hn] at hs
  obtain ⟨u, hu, hidle, hpc, henv⟩ := doCmd_of_discardsVm hc s0
  obtain rfl : t = u := Host.Outcome.next.inj (hs.symm.trans hu)
  rw [henv]
  refine ⟨hidle, abortIo_consumed s0, hpc, fun hne => ?memories, fun hw => ?noOutput, fun hw => ?output⟩
  case memories =>
    cases c with
    | reset => exact absurd rfl hne
    | buildBegin mode tsValid tsValue present => cases hs; exact ⟨abortIo_tape s0, abortIo_prog s0⟩
    | _ => cases hc
  case noOutput => rw [abortIo_of_ne_output hw]
  case output => exact abortIo_emitted_of_output hw
end

section
/-! SUPPORT. What a build that passes its checks constructs (R310, R54), a build begun and committed in two steps (R312), and
the two statements about them. -/

namespace Sys2Proof.Machine

open Sys2Proof

variable {s : State}

/-! ### A build that passes its checks -/

theorem programFault_passes (ho : s.stage.overflow = false) (hb : s.stage.badopSeen = false)
    (hbal : Balanced s.progRead s.stage.len) : programFault s = none := by
  simp only [programFault, ho, hb, validate_eq_none_iff.2 hbal, Bool.false_eq_true, if_false]

/-- A good configuration, and a program that is the default one or passes its own checks, pass the build (R255). -/
theorem buildFault_passes (hl : s.engState = .loading) (hin : s.stage.inputPresent = true)
    (htape : ¬ (buildTapeLen s = 0 ∨ s.hw.tapeMax < buildTapeLen s))
    (hprog : s.stage.mode = .suppliedProgram → programFault s = none) : buildFault s = none := by
  cases hm : s.stage.mode with
  | defaultProgram => exact buildFault_default hin htape hm
  | suppliedProgram =>
    have hcfg : ConfigPasses s := ⟨hl, hm, hin, htape⟩
    exact hcfg.buildFault_eq.trans (hprog hm)

/-! ### The VM it constructs -/

theorem construct_progLen_supplied (hm : s.stage.mode = .suppliedProgram) : (construct s).progLen = s.stage.len := by
  simp only [construct, buildProgLen, hm]

theorem construct_progLen_default (hm : s.stage.mode = .defaultProgram) : (construct s).progLen = 10 := by
  simp only [construct, buildProgLen, hm, Config.defaultProgLen]

/-- A supplied program is in place already. -/
theorem construct_progRead_supplied (hm : s.stage.mode = .suppliedProgram) (i : Nat) :
    (construct s).progRead i = s.progRead i := by
  simp only [State.progRead, construct, buildProg, hm]

/-- The default program is NoOps, whatever stood there before. -/
theorem construct_progRead_default (hm : s.stage.mode = .defaultProgram) (hp : Store.wf s.prog = true) {i : Nat}
    (hi : i < 10) : (construct s).progRead i = 0x0#4 := by
  simp only [State.progRead, construct, buildProg, hm, Store.read_fill _ _ _ hp, Config.defaultProgLen, hi, if_true]

/-- A built block begins HALTED exactly with an empty program (R156, R310). -/
theorem builtState_zero (n : Nat) : builtState 0 n = if n = 0 then .halted else .running := by
  cases n <;> rfl

/-! ### The default build (R312) -/

/-- While no step waits the host's next command is the one at the head of its queue. -/
theorem step_of_cmds_cons {c : Cmd} {rest : List Cmd} (hi : s.ioWait = .idle) (hc : s.env.cmds = c :: rest) :
    step s = doCmd c { s with env := { s.env with cmds := rest } } :=
  step_of_cmd ((nextMove_idle hi).trans (takeCmd_cons hc))

/-- The host's next two commands begin a build and commit it. -/
theorem runSteps_buildBegin_buildCommit {mode : BuildMode} {tsValid : Bool} {tsValue : Word} {present : Bool}
    {rest : List Cmd} (hi : s.ioWait = .idle)
    (hc : s.env.cmds = .buildBegin mode tsValid tsValue present :: .buildCommit :: rest) :
    runSteps 2 s = .next (doBuildCommit
      (doBuildBegin mode tsValid tsValue present { s with env := { s.env with cmds := rest } })) := by
  have habort : ∀ e : Env, abortIo { s with env := e } = { s with env := e } := fun e =>
    abortIo_of_ne_output (s := { s with env := e }) (by simp [hi])
  have hbegin : step s =
      .next (doBuildBegin mode tsValid tsValue present { s with env := { s.env with cmds := .buildCommit :: rest } }) :=
    step_of_cmds_cons hi hc
  rw [runSteps_succ, hbegin, andThen_next, runSteps_succ]
  simp only [doBuildBegin, habort]
  rw [step_of_cmds_cons (c := .buildCommit) (rest := rest) rfl rfl]
  rfl

end Sys2Proof.Machine

open Sys2Proof Sys2Proof.Machine

/-- Settles O45: the checks pass, so the answer is OK and the block is the constructed one. -/
theorem buildConstructsTheVm : Obligations.BuildConstructsTheVm := by
  unfold Obligations.BuildConstructsTheVm
  intro s s0 hn hl hin hmax hp hts hgood
  have hf : buildFault s0 = none := buildFault_passes hl hin (buildTapeLen_passes hmax hts) fun hm => by
    obtain ⟨ho, hb, hbal⟩ := hgood hm
    exact programFault_passes ho hb hbal
  have hcommit : step s = .next (answer .ok (construct s0)) :=
    (step_of_cmd hn).trans (congrArg Host.Outcome.next (doBuildCommit_passes hl hf))
  refine ⟨_, hcommit, rfl, rfl, fun _ _ => rfl, fun _ _ => rfl, rfl, rfl, fun hm => ?supplied, fun hm => ?default, rfl,
    builtState_zero _, rfl, rfl, rfl, fun h => ?zeros, rfl⟩
  case supplied => exact ⟨construct_progLen_supplied hm, construct_progRead_supplied hm⟩
  case default => exact ⟨construct_progLen_default hm, fun _ hi => construct_progRead_default hm hp hi⟩
  case zeros =>
    have hne : s0.engState ≠ .fault := by simp [hl]
    exact ⟨h.causeHeld.2 hne, h.infoHeld hne, h.idleLoading hl⟩

/-- Settles O46: the default build has nothing to fail but the check for an input device. -/
theorem defaultBuild : Obligations.DefaultBuild := by
  unfold Obligations.DefaultBuild
  intro s v rest present hhw hi hp hc
  have hrun := runSteps_buildBegin_buildCommit hi hc
  set b := doBuildBegin .defaultProgram false v present { s with env := { s.env with cmds := rest } }
  have hl : b.engState = .loading := rfl
  have hrest : b.env.cmds = rest := abortIo_cmds _
  cases present with
  | false =>
    rw [doBuildCommit_fails hl (buildFault_noInput rfl)] at hrun
    exact ⟨_, hrun, hrest, nofun, fun _ => ⟨rfl, rfl, rfl⟩⟩
  | true =>
    have hsame : b.hw = s.hw := abortIo_hw _
    have hmax : Config.defaultTapeLen ≤ b.hw.tapeMax := hsame ▸ Params.defaultTapeLen_le hhw
    have hwf : Store.wf b.prog = true := (congrArg Store.wf (abortIo_prog _)).trans hp
    rw [doBuildCommit_passes hl (buildFault_default rfl (buildTapeLen_passes hmax nofun) rfl)] at hrun
    refine ⟨_, hrun, hrest, fun _ => ⟨rfl, rfl, rfl, rfl, rfl, fun i hlt => ?noOp, rfl, rfl⟩, nofun⟩
    have hread : (construct b).progRead i = encodeCode .noOp := construct_progRead_default rfl hwf hlt
    exact (congrArg decodeCode hread).trans (decodeCode_encodeCode .noOp)
end
